-- ==== Sys2Proof/Word.lean ====
section
/-!
DEFINITION. The word types of GF8RS (spec/00_scope.md R5, R7; spec/20_memory.md R50, R53).
Every value is unsigned (R7).
-/
namespace Sys2Proof

/-- A field element, a reduction polynomial `pol` or one buffer entry: 8 bits (R5, R110). -/
abbrev Byte := BitVec 8

/-- A bus word or a command word: 32 bits (R5, R55, R80). -/
abbrev Word := BitVec 32

/-- A byte offset in the 4 KiB host window: 12 bits (R5, R53). -/
abbrev Offset := BitVec 12

end Sys2Proof
end

