-- ==== Sys2Proof/Config.lean ====
section
/-!
DEFINITION. What GF8RS fixes as a parameter (spec/00_scope.md R5, R6), and the free values of the model: constants
with no body, so that nothing can be proved about the value they take.
-/
namespace Sys2Proof.Config

/-- Where the platform places the 4 KiB window (R6 `GF_BASE`, 20_memory.md R52, R54). The spec does not fix it. -/
opaque gfBase : Nat

/-- The host address of a byte offset of the window (R52). -/
def hostAddress (off : Offset) : Nat := gfBase + off.toNat

/-- The platform's address decode: the offset of the window that a host address selects, if any (R52). -/
def windowOffset (addr : Nat) : Option Offset :=
  if gfBase ≤ addr ∧ addr < gfBase + 4096 then some (BitVec.ofNat 12 (addr - gfBase)) else none

/-- `any value` of one buffer byte (R6 `BUF_RESET`; 93_implementation_defined.md I8, I9): the value that draw `draw`
gives the byte at window offset `off`. Free: no statement can rest on what it is. -/
opaque freeByte (draw off : Nat) : Byte

/-- `any value` of the `bus_rdata` of an Err read (20_memory.md R59, 93_implementation_defined.md I10): draw `draw`. -/
opaque freeRdata (draw : Nat) : Word

/-- `T_MAX(cmd)`: a bound on the clock cycles from acceptance to completion of a command word. Free, and finite for each
word (R6, 70_reset_and_hazards.md R257). -/
opaque tMax (w : Word) : Nat

/-- What the host CPU does on an `Err` response (20_memory.md R59: "exception, ignored"). -/
inductive HostReaction where
  | exception
  | ignored
  deriving DecidableEq, Repr, Inhabited

/-- How the host CPU observes an `Err` response: its reaction, and whether the platform records the address
(60_exceptions.md R211). -/
structure BusErrObservation where
  reaction : HostReaction
  recordsAddress : Bool
  deriving DecidableEq, Repr, Inhabited

/-- `BUS_ERR_DELIVERY` (R6, 93_implementation_defined.md I14): how the host CPU observes the `Err` response of a write
(`we`) or a read of offset `addr`. Free: a property of the platform, which no operation of GF8RS reads. -/
opaque busErrDelivery (we : Bool) (addr : Offset) : BusErrObservation

/-- The largest message length L (R5 `LMAX`). -/
def lMax : Nat := 255

/-- The largest legal number of points or symbols N (R5 `NMAX`). -/
def nMax : Nat := 256

/-- The number of entries of MSG, PTS, SYM and OUT (R5), and of bits of ERASE. -/
def bufSize : Nat := 256

/-- The number of bytes that hold the ERASE bits (R5). -/
def eraseBytes : Nat := 32

end Sys2Proof.Config
end

