-- ==== Sys2Proof/Syntax.lean ====
section
/-!
DEFINITION. The commands of GF8RS, one constructor for each row of spec/opcode_table.json
(spec/30_encoding.md R85, operands as R84 and R90 name them).
-/
namespace Sys2Proof

/-- A command. Field elements and `pol` are 8 bits, and lengths and counts are naturals (R84): `L` and `n` in 0..255,
`N` in 0..511. `Instr.wf` checks those ranges. -/
inductive Instr where
  /-- NOP (44_control.md R200). -/
  | nop
  /-- MUL a, b, pol (40_field_arithmetic.md R119). -/
  | mul (a b pol : Byte)
  /-- INV a, pol (40_field_arithmetic.md R120). -/
  | inv (a pol : Byte)
  /-- EVAL x, L, pol (41_polynomial_evaluation.md R142). -/
  | eval (x : Byte) (L : Nat) (pol : Byte)
  /-- ENCODE L, N, pol (41_polynomial_evaluation.md R143). -/
  | encode (L N : Nat) (pol : Byte)
  /-- SOLVE n, pol (42_linear_solver.md R165). -/
  | solve (n : Nat) (pol : Byte)
  /-- DECODE L, N, pol (43_decoder.md R182). -/
  | decode (L N : Nat) (pol : Byte)
  deriving DecidableEq, Repr

end Sys2Proof
end

