-- ==== Sys2Proof/WellFormed.lean ====
section
/-!
DEFINITION. Which commands have a word: every operand fits its field (spec/30_encoding.md R82 to R84, R90: "The
assembler refuses an operand outside its field's width").
-/
namespace Sys2Proof

/-- The check that a length or system size fits the 8-bit field B or L (R82, R83, R84). -/
def lengthFits (L : Nat) : Bool := decide (L < 256)

/-- The check that a count fits the 9-bit field N (R83, R84). Counts 257..511 are encodable, and the machine answers
them with code 2 (R90, R93). -/
def countFits (N : Nat) : Bool := decide (N < 512)

/-- A command whose every operand fits its field (R90). -/
def Instr.wf : Instr → Bool
  | .nop => true
  | .mul _ _ _ => true
  | .inv _ _ => true
  | .eval _ L _ => lengthFits L
  | .encode L N _ => lengthFits L && countFits N
  | .solve n _ => lengthFits n
  | .decode L N _ => lengthFits L && countFits N

end Sys2Proof
end

