-- ==== Sys2Proof/Decode.lean ====
section
/-!
DEFINITION. The decoder, total on every 32-bit word (spec/30_encoding.md R88), and after it the encoder (R90).
-/
namespace Sys2Proof

/-- Why a word is ILLEGAL (R87). -/
inductive IllegalReason where
  /-- OP is 0x7 to 0xF: reserved for future definition (R87). -/
  | reservedOpcode
  /-- OP is 0x0 to 0x6 and a reserved bit of its row of R86 is not 0. -/
  | reservedField
  deriving DecidableEq, Repr

/-- What the decoder answers (R88: `Cmd | Illegal`). -/
inductive Decoded where
  | cmd (i : Instr)
  | illegal (why : IllegalReason)
  deriving DecidableEq, Repr

/-- Field OP, bits 31:28 (R81). -/
def opField (w : Word) : BitVec 4 := w.extractLsb' 28 4

/-- Field RSV4 of format S, bits 27:24 (R82). -/
def rsv4Field (w : Word) : BitVec 4 := w.extractLsb' 24 4

/-- Field RSV3 of format V, bits 27:25 (R83). -/
def rsv3Field (w : Word) : BitVec 3 := w.extractLsb' 25 3

/-- Field B of format S, bits 23:16 (R82). -/
def bField (w : Word) : Byte := w.extractLsb' 16 8

/-- Field N of format V, bits 24:16 (R83). -/
def nField (w : Word) : BitVec 9 := w.extractLsb' 16 9

/-- Field POL of both formats, bits 15:8 (R82, R83). -/
def polField (w : Word) : Byte := w.extractLsb' 8 8

/-- Field A of format S and field L of format V, bits 7:0 (R82, R83). -/
def aField (w : Word) : Byte := w.extractLsb' 0 8

/-- A word of a known opcode: `i` if its reserved bits are 0, and ILLEGAL otherwise (R86, R88). -/
def guardReserved (reservedZero : Bool) (i : Instr) : Decoded :=
  if reservedZero then .cmd i else .illegal .reservedField

/-- The decoder (R88). It looks only at the word. -/
def decode (w : Word) : Decoded :=
  match (opField w).toNat with
  | 0 => guardReserved (w.extractLsb' 0 28 == 0) .nop
  | 1 => guardReserved (rsv4Field w == 0) (.mul (aField w) (bField w) (polField w))
  | 2 => guardReserved (w.extractLsb' 16 12 == 0) (.inv (aField w) (polField w))
  | 3 => guardReserved (rsv4Field w == 0) (.eval (aField w) (bField w).toNat (polField w))
  | 4 => guardReserved (rsv3Field w == 0) (.encode (aField w).toNat (nField w).toNat (polField w))
  | 5 => guardReserved (w.extractLsb' 16 12 == 0) (.solve (aField w).toNat (polField w))
  | 6 => guardReserved (rsv3Field w == 0) (.decode (aField w).toNat (nField w).toNat (polField w))
  | _ => .illegal .reservedOpcode

/-- A word of format S from its fields, RSV4 being 0 (R82). -/
def formatS (op : BitVec 4) (b pol a : Byte) : Word := op ++ (0 : BitVec 4) ++ b ++ pol ++ a

/-- A word of format V from its fields, RSV3 being 0 (R83). -/
def formatV (op : BitVec 4) (n : BitVec 9) (pol l : Byte) : Word := op ++ (0 : BitVec 3) ++ n ++ pol ++ l

/-- The opcode of a command (R85). -/
def Instr.opcode : Instr → BitVec 4
  | .nop => 0x0
  | .mul _ _ _ => 0x1
  | .inv _ _ => 0x2
  | .eval _ _ _ => 0x3
  | .encode _ _ _ => 0x4
  | .solve _ _ => 0x5
  | .decode _ _ _ => 0x6

/-- The encoder (R90): the word of a well-formed command. -/
def encode (i : Instr) : Word :=
  match i with
  | .nop => formatS i.opcode 0 0 0
  | .mul a b pol => formatS i.opcode b pol a
  | .inv a pol => formatS i.opcode 0 pol a
  | .eval x L pol => formatS i.opcode (BitVec.ofNat 8 L) pol x
  | .encode L N pol => formatV i.opcode (BitVec.ofNat 9 N) pol (BitVec.ofNat 8 L)
  | .solve n pol => formatV i.opcode 0 pol (BitVec.ofNat 8 n)
  | .decode L N pol => formatV i.opcode (BitVec.ofNat 9 N) pol (BitVec.ofNat 8 L)

/-- The mask of a command's row (R86): the bits that select it. -/
def Instr.mask : Instr → Word
  | .nop => 0xFFFFFFFF#32
  | .mul _ _ _ => 0xFF000000#32
  | .inv _ _ => 0xFFFF0000#32
  | .eval _ _ _ => 0xFF000000#32
  | .encode _ _ _ => 0xFE000000#32
  | .solve _ _ => 0xFFFF0000#32
  | .decode _ _ _ => 0xFE000000#32

/-- The match value of a command's row (R86). -/
def Instr.matchBits : Instr → Word
  | .nop => 0x00000000#32
  | .mul _ _ _ => 0x10000000#32
  | .inv _ _ => 0x20000000#32
  | .eval _ _ _ => 0x30000000#32
  | .encode _ _ _ => 0x40000000#32
  | .solve _ _ => 0x50000000#32
  | .decode _ _ _ => 0x60000000#32

/-- The decoder's answer on a word given as a number whose low `nbits` bits are the command word, bit 0 the least
significant bit of `w[0]` as in spec/opcode_table.json. Bits at and above `nbits` are 0. -/
def decodeTableWord (nbits w : Nat) : Option Instr :=
  match decode (BitVec.ofNat 32 (w % 2 ^ nbits)) with
  | .cmd i => some i
  | .illegal _ => none

end Sys2Proof
end

