-- ==== Sys2Proof/Machine/State.lean ====
section
/-!
DEFINITION. The state of one GF8RS instance and of its port, as plain data (spec/10_state.md R20, spec/20_memory.md R50).
-/
namespace Sys2Proof.Machine

/-- The engine's phase (R35). -/
inductive Phase where
  | idle
  | busy
  deriving DecidableEq, Repr

/-- The stored bits of CTRL (R24). SRST and the reserved bits hold nothing. -/
structure Ctrl where
  /-- bit 0: enables the completion interrupt -/
  doneIe : Bool
  /-- bit 1: enables the error interrupt -/
  errIe : Bool
  deriving DecidableEq, Repr

/-- The stored bits of STATUS (R26). BUSY is `State.phase`, and the reserved bits hold nothing. -/
structure Status where
  /-- bit 1: set by every completion -/
  done : Bool
  /-- bits 7:4: the completion code (R28) -/
  err : BitVec 4
  /-- bit 8: the sticky error bit -/
  errs : Bool
  deriving DecidableEq, Repr

/-- A completion code (R28). -/
inductive Code where
  | ok
  | illegal
  | length
  | insufficient
  | eraseRange
  | noninv
  | singular
  deriving DecidableEq, Repr

/-- One buffer's bytes: (index, byte) pairs, indices strictly rising. An unlisted byte has not been written since the
last hard reset. -/
abbrev Memory := List Host.Cell

/-- The five buffers (R32, R33). -/
inductive Buf where
  | msg
  | pts
  | sym
  | out
  | erase
  deriving DecidableEq, Repr

/-- The contents of the five buffers (R32, R33). ERASE is held by bytes: position p is bit `p mod 8` of byte
`p div 8` (20_memory.md R58). -/
structure Buffers where
  /-- message coefficients -/
  msg : Memory
  /-- interpolation points -/
  pts : Memory
  /-- encoded or received symbols -/
  sym : Memory
  /-- recovered coefficients -/
  out : Memory
  /-- the erasure bitmap -/
  erase : Memory
  /-- the draw of `BUF_RESET` that unlisted bytes hold (the model's own field, log entry 1) -/
  initial : Nat
  deriving DecidableEq, Repr

/-- The complete state of one GF8RS instance (R20: "Nothing else is state"). -/
structure Arch where
  /-- CTRL (R24) -/
  ctrl : Ctrl
  /-- STATUS (R26) -/
  status : Status
  /-- RESULT (R30) -/
  result : Word
  /-- MSG, PTS, SYM, OUT and ERASE (R32, R33) -/
  bufs : Buffers
  /-- PHASE (R35) -/
  phase : Phase
  /-- CUR, the command word latched at acceptance (R35) -/
  cur : Word
  deriving DecidableEq, Repr

/-- A host transaction (20_memory.md R53). `wdata` is ignored for reads. -/
structure Transaction where
  we : Bool
  addr : Offset
  wdata : Word
  deriving DecidableEq, Repr

/-- The response of a performed transaction (20_memory.md R53). -/
inductive Response where
  /-- `Ok(rdata)` of a read -/
  | okRead (rdata : Word)
  /-- `Ok` of a write -/
  | okWrite
  /-- `Err` of a read: `bus_rdata` is any value (R59) -/
  | errRead (rdata : Word)
  /-- `Err` of a write -/
  | errWrite
  deriving DecidableEq, Repr

/-- Who moves in a step. -/
inductive Move where
  /-- the engine's completion step (R21, R94) -/
  | engine
  /-- the host port: the outstanding transaction, if it is not held (R21, R60) -/
  | host
  /-- `rst_n` goes low and returns to 1 (R251). `keepOutstanding` says whether the platform still presents the
  outstanding transaction after the reset (R60: "a property of the platform"). -/
  | hardReset (keepOutstanding : Bool)
  deriving DecidableEq, Repr

/-- An entry of the schedule: who is offered a step (log entry 4). -/
inductive Turn where
  | engine
  /-- the host port, `cycles` clock cycles after the last step. It counts while a command is in progress (log entry 5). -/
  | host (cycles : Nat)
  /-- `rst_n`, with the platform's choice about the outstanding transaction -/
  | hardReset (keepOutstanding : Bool)
  deriving DecidableEq, Repr

/-- The state of the model: GF8RS's own state, and its port with the model's own fields (INVENTORY.md, State). -/
structure State extends Arch where
  /-- transactions the host issues, the outstanding one first (R51) -/
  pending : List Transaction
  /-- the response given in the last step: `bus_ready`, `bus_err`, `bus_rdata` (R50) -/
  response : Option Response
  /-- the coming turns, read from the front, one a step (log entry 4) -/
  schedule : List Turn
  /-- clock cycles since the acceptance of the command in progress (R257) -/
  waited : Nat
  /-- the next unused draw of a free value -/
  draws : Nat
  deriving DecidableEq, Repr

/-- Why a step stops. R210: "GF8RS never stops, hangs or locks up on any input". No condition of the spec stops the
machine, so there is no constructor. -/
inductive Fault where
  deriving DecidableEq, Repr

/-- Why a step has no meaning. -/
inductive Refusal where
  /-- raised by `exec` for an instruction that has no meaning yet (safe); no arm does so now -/
  | notModelled (mnemonic : String)
  deriving DecidableEq, Repr

/-- The state after a hard reset (R38, 70_reset_and_hazards.md R251): registers 0, IDLE, every buffer byte a draw of
`BUF_RESET`. `cur` is unspecified by R38 and 0 here (log entry 3). The port and the model's own fields: nothing pending,
no response, no scheduled move (log entry 17). -/
def State.reset : State where
  ctrl := ⟨false, false⟩
  status := ⟨false, 0, false⟩
  result := 0
  bufs := ⟨[], [], [], [], [], 0⟩
  phase := .idle
  cur := 0
  pending := []
  response := none
  schedule := []
  waited := 0
  draws := 1

end Sys2Proof.Machine
end

