-- ==== Sys2Proof/Machine/Ops.lean ====
section
/-!
DEFINITION. The named operations over buffers and registers: memory, buffer bytes, acceptance, completion and the two
resets (spec/10_state.md R32 to R38, spec/30_encoding.md R92 to R95, spec/70_reset_and_hazards.md R251, R252).
-/
namespace Sys2Proof.Machine

/-! ### Memory: one buffer's bytes -/

/-- The byte listed at index `k`, if the byte has been written since the last hard reset. -/
def Memory.get? : Memory → Nat → Option Byte
  | [], _ => none
  | (a, v) :: m, k => if a = k then some v else Memory.get? m k

/-- Write byte `v` at index `k`, keeping the indices strictly rising. -/
def Memory.set : Memory → Nat → Byte → Memory
  | [], k, v => [(k, v)]
  | (a, x) :: m, k, v =>
    if k < a then (k, v) :: (a, x) :: m
    else if a = k then (k, v) :: m
    else (a, x) :: Memory.set m k v

/-- Write the bytes of `vs` at the indices `k`, `k + 1`, … -/
def Memory.setRange : Memory → Nat → List Byte → Memory
  | m, _, [] => m
  | m, k, v :: vs => Memory.setRange (Memory.set m k v) (k + 1) vs

/-- Every listed index is above `lo`, and the indices are strictly rising. -/
def Memory.risingAbove : Nat → Memory → Bool
  | _, [] => true
  | lo, (a, _) :: m => decide (lo < a) && Memory.risingAbove a m

/-- The canonical form: indices strictly rising. An unlisted byte has no value of its own in the list (it reads as its
`BUF_RESET` draw), so no listed byte can repeat it (log entry 2). -/
def Memory.wf : Memory → Bool
  | [] => true
  | (a, _) :: m => Memory.risingAbove a m

/-- Every listed index is below `size`. -/
def Memory.within (size : Nat) : Memory → Bool
  | [] => true
  | (a, _) :: m => decide (a < size) && Memory.within size m

/-! ### Buffers -/

/-- How many bytes a buffer has (R32, R33). -/
def Buf.size : Buf → Nat
  | .msg | .pts | .sym | .out => Config.bufSize
  | .erase => Config.eraseBytes

/-- A buffer's base offset in the host window (20_memory.md R54). -/
def Buf.base : Buf → Nat
  | .msg => 0x000
  | .pts => 0x100
  | .sym => 0x200
  | .out => 0x300
  | .erase => 0x400

/-- The bytes of buffer `b`. -/
def Buffers.mem (bs : Buffers) : Buf → Memory
  | .msg => bs.msg
  | .pts => bs.pts
  | .sym => bs.sym
  | .out => bs.out
  | .erase => bs.erase

/-- Replace the bytes of buffer `b`. -/
def Buffers.setMem (bs : Buffers) (b : Buf) (m : Memory) : Buffers :=
  match b with
  | .msg => { bs with msg := m }
  | .pts => { bs with pts := m }
  | .sym => { bs with sym := m }
  | .out => { bs with out := m }
  | .erase => { bs with erase := m }

/-- `X[k]` for the byte at index `k` of buffer `b` (R9, R32). A byte nobody has written since the last hard reset holds
`BUF_RESET`, a free value (R251, log entries 1 and 2). -/
def Buffers.byte (bs : Buffers) (b : Buf) (k : Nat) : Byte :=
  ((bs.mem b).get? k).getD (Config.freeByte bs.initial (b.base + k))

/-- `X[k] <- v`, `X[k+1] <- …` for the bytes of `vs` (R9). -/
def Buffers.write (bs : Buffers) (b : Buf) (k : Nat) (vs : List Byte) : Buffers :=
  bs.setMem b ((bs.mem b).setRange k vs)

/-- Every buffer is in the canonical form and within its size. -/
def Buffers.wf (bs : Buffers) : Bool :=
  (bs.msg.wf && bs.msg.within Config.bufSize) && (bs.pts.wf && bs.pts.within Config.bufSize) &&
  (bs.sym.wf && bs.sym.within Config.bufSize) && (bs.out.wf && bs.out.within Config.bufSize) &&
  (bs.erase.wf && bs.erase.within Config.eraseBytes)

/-- `X[k]` in state `s` (R9). -/
def State.readByte (s : State) (b : Buf) (k : Nat) : Byte := s.bufs.byte b k

/-- Write the bytes of `vs` into buffer `b` from index `k` on (R9). -/
def State.writeBytes (s : State) (b : Buf) (k : Nat) (vs : List Byte) : State :=
  { s with bufs := s.bufs.write b k vs }

/-- `ERASE[p]` (R9, R33): bit `p mod 8` of byte `p div 8` (20_memory.md R58). -/
def Buffers.eraseBit (bs : Buffers) (p : Nat) : Bool := (bs.byte .erase (p / 8)).getLsbD (p % 8)

/-- `ERASE[p]` in state `s`. -/
def State.eraseBit (s : State) (p : Nat) : Bool := s.bufs.eraseBit p

/-! ### What a command gives: a code and its writes (R93, R94) -/

/-- The writes of a command. -/
inductive Writes where
  /-- nothing (codes 1 to 4, and NOP) -/
  | nothing
  /-- `RESULT <- zext_32(v)` (MUL, INV, EVAL) -/
  | result (v : Byte)
  /-- `X[0] <- …`, `X[1] <- …` for the bytes of `vs` (ENCODE, SOLVE, DECODE) -/
  | buffer (b : Buf) (vs : List Byte)
  deriving DecidableEq, Repr

/-- `execute(w)`'s answer (R93): a completion code and the writes. -/
structure Effect where
  code : Code
  writes : Writes
  deriving DecidableEq, Repr

/-- The 4-bit value of a completion code (R28). -/
def Code.bits : Code → BitVec 4
  | .ok => 0
  | .illegal => 1
  | .length => 2
  | .insufficient => 3
  | .eraseRange => 4
  | .noninv => 5
  | .singular => 6

/-- Apply a command's writes (R94). -/
def State.applyWrites (s : State) : Writes → State
  | .nothing => s
  | .result v => { s with result := v.setWidth 32 }
  | .buffer b vs => s.writeBytes b 0 vs

/-- STATUS at a completion with code `c` (R94): ERR <- code, ERRS set if the code is not 0, DONE <- 1. -/
def Status.completed (st : Status) (c : Code) : Status :=
  { done := true, err := c.bits, errs := st.errs || c != .ok }

/-- The completion of a command (R94, 60_exceptions.md R215), as one transition: its writes, STATUS, PHASE <- IDLE. This
is GF8RS's only "entry": it takes no trap, saves no state and switches no mode. CUR keeps its word, which no rule reads
while IDLE (R35, log entry 3). -/
def State.complete (s : State) (e : Effect) : State :=
  let t := s.applyWrites e.writes
  { t with status := s.status.completed e.code, phase := .idle }

/-! ### Acceptance (R92) -/

/-- Acceptance of command word `w` (R92): CUR, PHASE, DONE and ERR. ERRS, CTRL, RESULT and the buffers stay. -/
def State.accept (s : State) (w : Word) : State :=
  { s with
    cur := w
    phase := .busy
    status := { s.status with done := false, err := 0 }
    waited := 0 }

/-! ### The two resets (R251, R252) -/

/-- A destination set (R95). -/
inductive Dest where
  /-- the empty set: codes 1 to 4, and NOP -/
  | nothing
  /-- RESULT (MUL, INV, EVAL) -/
  | result
  /-- the bytes `0 .. n-1` of buffer `b` (ENCODE, SOLVE, DECODE) -/
  | bytes (b : Buf) (n : Nat)
  deriving DecidableEq, Repr

/-- The set of bytes that a command's writes cover: `dest(w)` of R95. -/
def Writes.dest : Writes → Dest
  | .nothing => .nothing
  | .result _ => .result
  | .buffer b vs => .bytes b vs.length

/-- The any-value bytes of draw `d` for indices `0 .. n-1` of buffer `b`. -/
def freeBytes (d : Nat) (b : Buf) (n : Nat) : List Byte :=
  (List.range n).map fun k => Config.freeByte d (b.base + k)

/-- `b <- any value` for every byte of the destination set of an aborted command (R252), a new draw. RESULT keeps its bits
31:8 at 0 (10_state.md R30). -/
def State.scramble (s : State) : Dest → State
  | .nothing => s
  | .result => { s with result := (Config.freeByte s.draws 0x80C).setWidth 32, draws := s.draws + 1 }
  | .bytes b n => { s.writeBytes b 0 (freeBytes s.draws b n) with draws := s.draws + 1 }

/-- CTRL, STATUS and RESULT 0 and PHASE IDLE: what both resets do to the registers (R38). -/
def State.clearRegisters (s : State) : State :=
  { s with ctrl := ⟨false, false⟩, status := ⟨false, 0, false⟩, result := 0, phase := .idle }

/-- The hard reset (R251) as one transition: the registers, and every buffer byte any value (`BUF_RESET`, a new draw). A
command in progress is abandoned, and no response is given. -/
def State.hardReset (s : State) : State :=
  { s.clearRegisters with bufs := ⟨[], [], [], [], [], s.draws⟩, draws := s.draws + 1 }

end Sys2Proof.Machine
end

