-- ==== Sys2Proof/Machine/Control.lean ====
section
/-!
DEFINITION. The control command NOP, and the completion of an ILLEGAL word (spec/44_control.md R200,
spec/30_encoding.md R87, R93).
-/
namespace Sys2Proof.Machine

/-- What NOP does at completion (R200): nothing but complete. -/
def nopEffect : Effect := ⟨.ok, .nothing⟩

/-- What an ILLEGAL word does at completion (R87, R93): code 1 and no writes. -/
def illegalEffect : Effect := ⟨.illegal, .nothing⟩

/-- NOP (R200). -/
def execNop (s : State) : Host.Outcome State Fault Refusal :=
  .next (s.complete nopEffect)

/-- The completion of an ILLEGAL word (R87). -/
def completeIllegal (s : State) : Host.Outcome State Fault Refusal :=
  .next (s.complete illegalEffect)

end Sys2Proof.Machine
end

