-- ==== Sys2Proof/Machine/Field.lean ====
section
/-!
DEFINITION. MULU and INVU: field arithmetic, and the commands MUL and INV (spec/40_field_arithmetic.md R110 to R122).
-/
namespace Sys2Proof.Machine

/-- Field addition (R111). -/
def gfAdd (a b : Byte) : Byte := a ^^^ b

/-- One shift of the multiplier's local `a` (R112): left by one bit, kept to 8 bits, and `pol` XORed in when bit 7 was
shifted out. "The result" that is XORed is the shifted `a` (92_eei_decisions.md D16). -/
def gfShift (a pol : Byte) : Byte := if a.getLsbD 7 then (a <<< 1) ^^^ pol else a <<< 1

/-- The loop of R112, at most `fuel` iterations, stopping when `b` is 0. -/
def gfMulLoop (pol : Byte) : Nat → Byte → Byte → Byte → Byte
  | 0, p, _, _ => p
  | fuel + 1, p, a, b =>
    if b = 0 then p
    else gfMulLoop pol fuel (if b.getLsbD 0 then gfAdd p a else p) (gfShift a pol) (b >>> 1)

/-- `gf_mul(a, b, pol)` (R112): "at most 8 iterations", since every iteration shifts `b` right. -/
def gfMul (a b pol : Byte) : Byte := gfMulLoop pol 8 0 a b

/-- The loop of R115, `count` times: `s` is squared and `r` multiplied by it. -/
def gfInvLoop (pol : Byte) : Nat → Byte → Byte → Byte
  | 0, _, r => r
  | count + 1, s, r => gfInvLoop pol count (gfMul s s pol) (gfMul r (gfMul s s pol) pol)

/-- `gf_inv(a, pol)` (R115): `a^254` by 7 squarings and 7 products. It gives 0 for `a = 0` (R116, 90_conflicts.md C6). -/
def gfInv (a pol : Byte) : Byte := gfInvLoop pol 7 a 1

/-- `inv_ok(a, pol)` (R117). -/
def invOk (a pol : Byte) : Bool := gfMul a (gfInv a pol) pol == 1

/-- What MUL does at completion (R119). -/
def mulEffect (a b pol : Byte) : Effect := ⟨.ok, .result (gfMul a b pol)⟩

/-- What INV does at completion (R120): RESULT is written also when the inverse check fails (code 5). -/
def invEffect (a pol : Byte) : Effect :=
  ⟨if invOk a pol then .ok else .noninv, .result (gfInv a pol)⟩

/-- MUL a, b, pol (R119). -/
def execMul (a b pol : Byte) (s : State) : Host.Outcome State Fault Refusal :=
  .next (s.complete (mulEffect a b pol))

/-- INV a, pol (R120). -/
def execInv (a pol : Byte) (s : State) : Host.Outcome State Fault Refusal :=
  .next (s.complete (invEffect a pol))

end Sys2Proof.Machine
end

