-- ==== Sys2Proof/Machine/Operands.lean ====
section
/-!
DEFINITION. The operand forms of the vector commands: ranges of buffer elements and the erasure bitmap, read by index
(spec/10_state.md R22, R34, spec/20_memory.md R67, spec/43_decoder.md R180, R181).
-/
namespace Sys2Proof.Machine

/-- `X[0 .. n-1]` (R34). -/
def State.elements (s : State) (b : Buf) (n : Nat) : List Byte := (List.range n).map (s.readByte b)

/-- `[X[u] : u in us]`: the elements at the listed positions (R182). -/
def State.elementsAt (s : State) (b : Buf) (us : List Nat) : List Byte := us.map (s.readByte b)

/-- The survivors (R181): the positions `p < N` with `ERASE[p] = 0`, in increasing order. -/
def State.survivors (s : State) (N : Nat) : List Nat := (List.range N).filter fun p => !s.eraseBit p

/-- Some erased position lies outside the `N` received symbols (R93): `N ≤ p ≤ 255` with `ERASE[p] = 1`. -/
def State.eraseOutOfRange (s : State) (N : Nat) : Bool :=
  (List.range Config.bufSize).any fun p => decide (N ≤ p) && s.eraseBit p

end Sys2Proof.Machine
end

