-- ==== Sys2Proof/Machine/Solver.lean ====
section
/-!
DEFINITION. SLVU: the augmented Vandermonde matrix, elimination without pivoting, division by the diagonal, and the
command SOLVE (spec/42_linear_solver.md R160 to R167).
-/
namespace Sys2Proof.Machine

/-- The working matrix, by rows. It lives inside one engine step only (10_state.md R36). -/
abbrev WorkMatrix := List (List Byte)

/-- Row `j` of the matrix (empty outside it: every index of the rules is inside, R8). -/
def WorkMatrix.row (w : WorkMatrix) (j : Nat) : List Byte := w.getD j []

/-- `W[j][m]`. -/
def WorkMatrix.entry (w : WorkMatrix) (j m : Nat) : Byte := (w.row j).getD m 0

/-- `n` successive powers of `p`, the first being `x` (R161: "via repeated field multiplication"). -/
def powersFrom (p pol : Byte) : Nat → Byte → List Byte
  | 0, _ => []
  | n + 1, x => x :: powersFrom p pol n (gfMul x p pol)

/-- The augmented row of point `p` and value `v`: 1, p, …, p^(n-1), then v (R161). -/
def vandermondeRow (n : Nat) (pol p v : Byte) : List Byte := powersFrom p pol n 1 ++ [v]

/-- The augmented matrix of `n` points and values (R161). -/
def vandermonde (n : Nat) (ps vs : List Byte) (pol : Byte) : WorkMatrix :=
  (List.range n).map fun j => vandermondeRow n pol (ps.getD j 0) (vs.getD j 0)

/-- `row ^ r · pivot`, entry by entry over every column (R162). -/
def eliminateRow (r pol : Byte) (row pivot : List Byte) : List Byte :=
  List.zipWith (fun a b => gfAdd a (gfMul r b pol)) row pivot

/-- The solver's working state: the matrix and the pivot-fault bit `pf` (R162, R164). -/
structure Work where
  w : WorkMatrix
  pf : Bool
  deriving DecidableEq, Repr

/-- Row `j` after pivot step `i` (R162): the pivot row stays, and every other row loses `r` times the pivot row, `r`
taken before the row changes (92_eei_decisions.md D39). -/
def pivotRow (pol : Byte) (i : Nat) (w : WorkMatrix) (q : Byte) (j : Nat) : List Byte :=
  if j = i then w.row j else eliminateRow (gfMul (w.entry j i) q pol) pol (w.row j) (w.row i)

/-- Pivot step `i` (R162), with the pivot check of R164. A faulting pivot changes no value. -/
def pivotStep (n : Nat) (pol : Byte) (k : Work) (i : Nat) : Work :=
  let p := k.w.entry i i
  let q := gfInv p pol
  { w := (List.range n).map (pivotRow pol i k.w q)
    pf := k.pf || !invOk p pol }

/-- The elimination (R162): the pivot steps `0 .. n-1` in increasing order. -/
def eliminate (n : Nat) (pol : Byte) (k : Work) : Work := (List.range n).foldl (pivotStep n pol) k

/-- Division by the diagonal (R163). -/
def divideDiagonal (n : Nat) (pol : Byte) (w : WorkMatrix) : List Byte :=
  (List.range n).map fun i => gfMul (w.entry i n) (gfInv (w.entry i i) pol) pol

/-- Some diagonal element fails the inverse check at its use in R163 (R164). -/
def diagonalFaults (n : Nat) (pol : Byte) (w : WorkMatrix) : Bool :=
  (List.range n).any fun i => !invOk (w.entry i i) pol

/-- `gj_solve(n, P, V, pol)` (R160): the coefficients and the pivot-fault bit. -/
def gjSolve (n : Nat) (ps vs : List Byte) (pol : Byte) : List Byte × Bool :=
  let k := eliminate n pol ⟨vandermonde n ps vs pol, false⟩
  (divideDiagonal n pol k.w, k.pf || diagonalFaults n pol k.w)

/-- What a solve of `n` equations gives a command: OUT[0..n-1] and code 0 or 6 (R165, 43_decoder.md R182). -/
def solveOutcome (n : Nat) (ps vs : List Byte) (pol : Byte) : Effect :=
  let r := gjSolve n ps vs pol
  ⟨if r.2 then .singular else .ok, .buffer .out r.1⟩

/-- What SOLVE does at completion (R165). -/
def solveEffect (n : Nat) (pol : Byte) (s : State) : Effect :=
  solveOutcome n (s.elements .pts n) (s.elements .sym n) pol

/-- SOLVE n, pol (R165). -/
def execSolve (n : Nat) (pol : Byte) (s : State) : Host.Outcome State Fault Refusal :=
  .next (s.complete (solveEffect n pol s))

end Sys2Proof.Machine
end

