-- ==== Sys2Proof/Machine/Decf.lean ====
section
/-!
DEFINITION. DECF: the decode front end and the command DECODE (spec/43_decoder.md R180 to R184).
-/
namespace Sys2Proof.Machine

/-- The first `L` survivors (R181, 90_conflicts.md C2): `U = S[0 .. L-1]`. -/
def State.chosen (s : State) (L N : Nat) : List Nat := (s.survivors N).take L

/-- What DECODE does at completion (R182), with the checks in the order of R93. -/
def decodeEffect (L N : Nat) (pol : Byte) (s : State) : Effect :=
  if Config.nMax < N then ⟨.length, .nothing⟩
  else if s.eraseOutOfRange N then ⟨.eraseRange, .nothing⟩
  else if (s.survivors N).length < L then ⟨.insufficient, .nothing⟩
  else solveOutcome L (s.elementsAt .pts (s.chosen L N)) (s.elementsAt .sym (s.chosen L N)) pol

/-- DECODE L, N, pol (R182). -/
def execDecode (L N : Nat) (pol : Byte) (s : State) : Host.Outcome State Fault Refusal :=
  .next (s.complete (decodeEffect L N pol s))

end Sys2Proof.Machine
end

