-- ==== Sys2Proof/Machine/Eval.lean ====
section
/-!
DEFINITION. EVU: Horner evaluation, and the commands EVAL and ENCODE (spec/41_polynomial_evaluation.md R140 to R144).
-/
namespace Sys2Proof.Machine

/-- The loop of R140 over the coefficients still to come, the highest first: `acc <- gf_mul(acc, x, pol) ^ MSG[k]`. -/
def hornerLoop (x pol : Byte) : Byte → List Byte → Byte
  | acc, [] => acc
  | acc, c :: cs => hornerLoop x pol (gfAdd (gfMul acc x pol) c) cs

/-- `horner(L, x, pol)` for the message `ms = MSG[0..L-1]` (R140): it starts from the highest coefficient `MSG[L-1]`.
The empty message never reaches it (R93); its value here is used by no command (log entry 16). -/
def horner (ms : List Byte) (x pol : Byte) : Byte :=
  match ms.reverse with
  | [] => 0
  | top :: rest => hornerLoop x pol top rest

/-- What EVAL does at completion (R142, with the check of R93). -/
def evalEffect (x : Byte) (L : Nat) (pol : Byte) (s : State) : Effect :=
  if L = 0 then ⟨.length, .nothing⟩
  else ⟨.ok, .result (horner (s.elements .msg L) x pol)⟩

/-- What ENCODE does at completion (R143, with the checks of R93): one symbol per point, all from the state at the
completion (R144). -/
def encodeEffect (L N : Nat) (pol : Byte) (s : State) : Effect :=
  if L = 0 ∨ Config.nMax < N then ⟨.length, .nothing⟩
  else ⟨.ok, .buffer .sym ((s.elements .pts N).map fun x => horner (s.elements .msg L) x pol)⟩

/-- EVAL x, L, pol (R142). -/
def execEval (x : Byte) (L : Nat) (pol : Byte) (s : State) : Host.Outcome State Fault Refusal :=
  .next (s.complete (evalEffect x L pol s))

/-- ENCODE L, N, pol (R143). -/
def execEncode (L N : Nat) (pol : Byte) (s : State) : Host.Outcome State Fault Refusal :=
  .next (s.complete (encodeEffect L N pol s))

end Sys2Proof.Machine
end

