-- ==== Sys2Proof/Machine/Execute.lean ====
section
/-!
DEFINITION. `execute(w)` and `dest(w)` (spec/30_encoding.md R93, R95): the code and the writes of any 32-bit word in a
state. The soft reset needs them; `exec` gives each command the same effect.
-/
namespace Sys2Proof.Machine

/-- The code and the writes of a command (R93). -/
def effectOf (i : Instr) (s : State) : Effect :=
  match i with
  | .nop => nopEffect
  | .mul a b pol => mulEffect a b pol
  | .inv a pol => invEffect a pol
  | .eval x L pol => evalEffect x L pol s
  | .encode L N pol => encodeEffect L N pol s
  | .solve n pol => solveEffect n pol s
  | .decode L N pol => decodeEffect L N pol s

/-- `execute(w)` (R93), total on every word. -/
def execute (w : Word) (s : State) : Effect :=
  match decode w with
  | .cmd i => effectOf i s
  | .illegal _ => illegalEffect

/-- `dest(w)` (R95): the bytes that `execute(w)` would write if it completed from the current buffers. -/
def dest (w : Word) (s : State) : Dest := (execute w s).writes.dest

/-- The soft reset (R252) as one transition: if a command is in progress, its destination set becomes any value, and
the registers are cleared. -/
def State.softReset (s : State) : State :=
  (if s.phase = .busy then s.scramble (dest s.cur s) else s).clearRegisters

end Sys2Proof.Machine
end

