-- ==== Sys2Proof/Machine/Flags.lean ====
section
/-!
DEFINITION. The register words the host reads and writes, the W1C flags of STATUS, the ID constant and the interrupt
line (spec/10_state.md R24 to R31, spec/60_exceptions.md R216).
-/
namespace Sys2Proof.Machine

/-- A flag as a word with the flag in bit 0. -/
def bitWord (b : Bool) : Word := if b then 1#32 else 0#32

/-- STATUS.BUSY (R26): 1 if and only if PHASE = BUSY. -/
def State.isBusy (s : State) : Bool := s.phase == .busy

/-- What a read of CTRL returns (R24): SRST and the reserved bits read 0. -/
def State.ctrlWord (s : State) : Word := bitWord s.ctrl.doneIe ||| (bitWord s.ctrl.errIe <<< 1)

/-- What a read of STATUS returns (R26): the reserved bits read 0. -/
def State.statusWord (s : State) : Word :=
  bitWord s.isBusy ||| (bitWord s.status.done <<< 1) ||| (s.status.err.setWidth 32 <<< 4) |||
    (bitWord s.status.errs <<< 8)

/-- What a read of ID returns (R31). -/
def idWord : Word := 0x47460801#32

/-- A CTRL write of `w` with bit 31 clear (R25). -/
def State.writeCtrl (s : State) (w : Word) : State :=
  { s with ctrl := ⟨w.getLsbD 0, w.getLsbD 1⟩ }

/-- A STATUS write of `w` (R27): W1C of DONE and ERRS. -/
def State.writeStatus (s : State) (w : Word) : State :=
  { s with status := { s.status with
      done := s.status.done && !w.getLsbD 1
      errs := s.status.errs && !w.getLsbD 8 } }

/-- The interrupt line (R216), a combinational function of the state. -/
def State.irq (s : State) : Bool :=
  (s.status.done && s.ctrl.doneIe) || (s.status.errs && s.ctrl.errIe)

end Sys2Proof.Machine
end

