-- ==== Sys2Proof/Machine/Bus.lean ====
section
/-!
DEFINITION. The host port: the address map, the hold rule and the transactions (spec/20_memory.md R50 to R67,
spec/10_state.md R24 to R33).
-/
namespace Sys2Proof.Machine

/-- Why a transaction gets `Err` (60_exceptions.md R211). -/
inductive BusError where
  /-- `addr[1:0] ≠ 0` (R56) -/
  | misaligned
  /-- a reserved offset: 0x420-0x7FF or 0x814-0xFFF (R59) -/
  | reserved
  deriving DecidableEq, Repr

/-- A mapped location of the host window (R54). -/
inductive Location where
  /-- the word of buffer `b` whose first byte has index `k` -/
  | buffer (b : Buf) (k : Nat)
  | ctrl
  | status
  | cmd
  | result
  | id
  deriving DecidableEq, Repr

/-- What an offset selects. -/
inductive Target where
  | location (l : Location)
  | error (e : BusError)
  deriving DecidableEq, Repr

/-- The location of an aligned offset (R54). -/
def mapAligned (a : Nat) : Target :=
  if a < 0x100 then .location (.buffer .msg a)
  else if a < 0x200 then .location (.buffer .pts (a - 0x100))
  else if a < 0x300 then .location (.buffer .sym (a - 0x200))
  else if a < 0x400 then .location (.buffer .out (a - 0x300))
  else if a < 0x420 then .location (.buffer .erase (a - 0x400))
  else if a = 0x800 then .location .ctrl
  else if a = 0x804 then .location .status
  else if a = 0x808 then .location .cmd
  else if a = 0x80C then .location .result
  else if a = 0x810 then .location .id
  else .error .reserved

/-- What a 12-bit offset selects (R54, R56, R59). A misaligned offset is an error whatever it points at. -/
def target (addr : Offset) : Target :=
  if addr.extractLsb' 0 2 = 0 then mapAligned addr.toNat else .error .misaligned

/-- The hold rule for a mapped location (R60): buffers always, CMD writes, RESULT reads. -/
def Location.heldWhileBusy : Location → Bool → Bool
  | .buffer _ _, _ => true
  | .cmd, we => we
  | .result, we => !we
  | .ctrl, _ => false
  | .status, _ => false
  | .id, _ => false

/-- A transaction is held (R60). An `Err` is never held (R59). -/
def State.held (s : State) (t : Transaction) : Bool :=
  s.isBusy &&
    match target t.addr with
    | .location l => l.heldWhileBusy t.we
    | .error _ => false

/-- The bytes of a word, the lowest first (R57). -/
def wordBytes (v : Word) : List Byte :=
  [v.extractLsb' 0 8, v.extractLsb' 8 8, v.extractLsb' 16 8, v.extractLsb' 24 8]

/-- The word at index `k` of a buffer, little-endian (R57). For ERASE this is the packing of R58. -/
def State.bufferWord (s : State) (b : Buf) (k : Nat) : Word :=
  s.readByte b (k + 3) ++ s.readByte b (k + 2) ++ s.readByte b (k + 1) ++ s.readByte b k

/-- What a read of a location returns (R24, R26, R29 to R31, R57, R58). -/
def State.readLocation (s : State) : Location → Word
  | .buffer b k => s.bufferWord b k
  | .ctrl => s.ctrlWord
  | .status => s.statusWord
  | .cmd => 0
  | .result => s.result
  | .id => idWord

/-- What a write of `v` to a location does (R25, R27, R57, R58, R61, R92). Writes to RESULT and ID are ignored. -/
def State.writeLocation (s : State) (l : Location) (v : Word) : State :=
  match l with
  | .buffer b k => s.writeBytes b k (wordBytes v)
  | .ctrl => if v.getLsbD 31 then s.softReset else s.writeCtrl v
  | .status => s.writeStatus v
  | .cmd => s.accept v
  | .result => s
  | .id => s

/-- `bus_ready` in the last step (R50): a transaction was performed. -/
def State.busReady (s : State) : Bool := s.response.isSome

/-- `bus_err` in the last step (R50), valid when `bus_ready` is 1. R50 leaves it open while `bus_ready` is 0: false there is
the model's choice (DESIGN CHOICE, log entry 8), which no operation and no statement reads. -/
def State.busErr (s : State) : Bool :=
  match s.response with
  | some (.errRead _) => true
  | some .errWrite => true
  | some (.okRead _) => false
  | some .okWrite => false
  | none => false

/-- How the host CPU observes the response `r` to its transaction `t`, where that is an `Err` (R59): the platform's
`BUS_ERR_DELIVERY`. No state of GF8RS depends on it. -/
def Response.hostObserves (r : Response) (t : Transaction) : Option Config.BusErrObservation :=
  match r with
  | .errRead _ => some (Config.busErrDelivery t.we t.addr)
  | .errWrite => some (Config.busErrDelivery t.we t.addr)
  | .okRead _ => none
  | .okWrite => none

/-- `bus_rdata` of the last step's read (R50, R59). Where no read was performed the port carries no read data. -/
def State.busRdata (s : State) : Option Word :=
  match s.response with
  | some (.okRead v) => some v
  | some (.errRead v) => some v
  | some .okWrite => none
  | some .errWrite => none
  | none => none

/-- The port gives a response. -/
def State.respond (s : State) (r : Response) : State := { s with response := some r }

/-- The `Err` response (R59): no state of GF8RS changes. The `bus_rdata` of an `Err` read is any value, a new draw. -/
def State.busError (s : State) (we : Bool) : State :=
  if we then s.respond .errWrite
  else { s.respond (.errRead (Config.freeRdata s.draws)) with draws := s.draws + 1 }

/-- A transaction that is not held is performed (R53). -/
def State.perform (s : State) (t : Transaction) : State :=
  match target t.addr with
  | .error _ => s.busError t.we
  | .location l =>
    if t.we then (s.writeLocation l t.wdata).respond .okWrite
    else s.respond (.okRead (s.readLocation l))

end Sys2Proof.Machine
end

