-- ==== Sys2Proof/Machine/Arbiter.lean ====
section
/-!
DEFINITION. Which agent moves in a step, and the moves that are not the engine's (spec/10_state.md R21,
spec/20_memory.md R51, R60, spec/70_reset_and_hazards.md R251, R252, R256, R257).
-/
namespace Sys2Proof.Machine

/-- The clock cycles from the last step to this one, as the schedule's entry for the host port gives them. -/
def State.turnCycles (s : State) : Nat :=
  match s.schedule with
  | .host cycles :: _ => cycles
  | .engine :: _ => 0
  | .hardReset _ :: _ => 0
  | [] => 0

/-- The host port can move before the command in progress completes: its move still lies within `T_MAX` of the acceptance
(R257). -/
def State.hostFits (s : State) : Bool := decide (s.waited + s.turnCycles ≤ Config.tMax s.cur)

/-- The move of the coming step. The schedule chooses; the engine can move only while BUSY (R21), and the host port
cannot pass it over beyond `T_MAX` (R257). With no choice left the engine moves as soon as it can. -/
def State.nextMove (s : State) : Move :=
  match s.schedule with
  | .hardReset keep :: _ => .hardReset keep
  | .host _ :: _ =>
    match s.phase with
    | .idle => .host
    | .busy => if s.hostFits then .host else .engine
  | .engine :: _ =>
    match s.phase with
    | .idle => .host
    | .busy => .engine
  | [] =>
    match s.phase with
    | .idle => .host
    | .busy => .engine

/-- A step begins: one choice of the schedule is used, and the port gives no response unless the step gives one. -/
def State.beginStep (s : State) : State := { s with schedule := s.schedule.tail, response := none }

/-- The clock cycles up to the host port's move pass for a command in progress (R257). -/
def State.age (s : State) : State :=
  match s.phase with
  | .idle => s
  | .busy => { s with waited := s.waited + s.turnCycles }

/-- The host port's move: the outstanding transaction is performed and the next becomes outstanding, unless it is held
(R51, R60). With nothing pending, nothing happens (log entry 15). -/
def State.hostMove (s : State) : State :=
  match s.pending with
  | [] => s
  | t :: rest => if s.held t then s else State.perform { s with pending := rest } t

/-- `rst_n` low and back to 1 (R251). The outstanding transaction stays or goes, as the platform decides (R60). -/
def State.resetMove (s : State) (keepOutstanding : Bool) : State :=
  if keepOutstanding then s.hardReset else { s.hardReset with pending := s.pending.tail }

/-- The engine fetches no program (R23): its command is the word latched in CUR, decoded at the completion step
(R88, R93). -/
def State.fetched (s : State) : Decoded := decode s.cur

/-- `s` with command word `w` accepted (R92) and the engine's move next. -/
def State.placeCommand (s : State) (w : Word) : State :=
  { s.accept w with schedule := .engine :: s.schedule }

end Sys2Proof.Machine
end

