-- ==== Sys2Proof/Machine/Dispatch.lean ====
section
/-!
DEFINITION. The dispatch: each command's meaning at its completion step (spec/30_encoding.md R94), one arm each.
-/
namespace Sys2Proof.Machine

def exec (i : Instr) (s : State) : Host.Outcome State Fault Refusal :=
  match i with
  | .nop => Sys2Proof.Machine.execNop s
  | .mul a b pol => Sys2Proof.Machine.execMul a b pol s
  | .inv a pol => Sys2Proof.Machine.execInv a pol s
  | .eval x L pol => Sys2Proof.Machine.execEval x L pol s
  | .encode L N pol => Sys2Proof.Machine.execEncode L N pol s
  | .solve n pol => Sys2Proof.Machine.execSolve n pol s
  | .decode L N pol => Sys2Proof.Machine.execDecode L N pol s

end Sys2Proof.Machine
end

