-- ==== Sys2Proof/Machine/Step.lean ====
section
/-!
DEFINITION. One step of the machine (spec/10_state.md R21): the engine's completion, the host port's move or a hard
reset.
-/
namespace Sys2Proof.Machine

/-- One step. The engine's step is `exec` of the command in CUR (R94), an ILLEGAL word completing with code 1 (R87). -/
def step (s : State) : Host.Outcome State Fault Refusal :=
  match s.nextMove with
  | .hardReset keep => .next (s.beginStep.resetMove keep)
  | .host => .next s.age.beginStep.hostMove
  | .engine =>
    match s.fetched with
    | .cmd i => exec i s.beginStep
    | .illegal _ => completeIllegal s.beginStep

/-- `s` with the command word whose low `nbits` bits are `w` where the next step runs it: accepted into CUR (R92), with
the engine's move next in the schedule (log entry 7). -/
def State.withFetchWord (s : State) (nbits w : Nat) : State :=
  s.placeCommand (BitVec.ofNat 32 (w % 2 ^ nbits))

end Sys2Proof.Machine
end

