-- ==== Sys2Proof/Safety.lean ====
section
/-!
DEFINITION. What counts as a safe state and a safe run, in the terms the statements use, and the polynomial reading of
bytes (spec/00_scope.md R10). Nothing in Machine/ uses this file.
-/
namespace Sys2Proof.Machine

/-- The completion codes GF8RS can produce are 0 to 6: 7 to 15 are "never produced" (spec/10_state.md R28). -/
def Status.errProduced (st : Status) : Bool := decide (st.err.toNat ≤ 6)

/-- The state invariant: every buffer is in its canonical form and within its size (R32, R33), RESULT is 0 above bit 7
(R30), ERR is a produced code (R28), a command in progress shows DONE = 0 and ERR = 0 (20_memory.md R62) and has waited
at most `T_MAX` (R257), and the draw that holds the buffers' reset contents has been used (log entry 1). -/
def State.Inv (s : State) : Prop :=
  s.bufs.wf = true ∧ s.result.toNat < 256 ∧ s.status.errProduced = true ∧
    (s.phase = .busy → s.status.done = false ∧ s.status.err = 0 ∧ s.waited ≤ Config.tMax s.cur) ∧
    s.bufs.initial < s.draws

/-- `t` holds all that GF8RS holds in `s`: no state of R20 changed, whatever the port and the model's own fields do. -/
def State.sameArch (s t : State) : Prop := t.toArch = s.toArch

/-- Every byte of buffer `b` reads in `t` as in `s`. -/
def State.sameBuffer (s t : State) (b : Buf) : Prop := ∀ k, t.readByte b k = s.readByte b k

/-- Every byte of every buffer reads in `t` as in `s`. -/
def State.sameBuffers (s t : State) : Prop := ∀ b, s.sameBuffer t b

/-- What no completion touches: CTRL, the port and the model's own fields. CUR is unspecified after it (R35) and is not
among them. -/
def State.sameOutside (s t : State) : Prop :=
  t.ctrl = s.ctrl ∧ t.pending = s.pending ∧ t.response = s.response ∧ t.schedule = s.schedule ∧
    t.waited = s.waited ∧ t.draws = s.draws

/-- `t` shows the completion of a command with code `c` from `s` (spec/30_encoding.md R94): ERR, DONE, ERRS and PHASE. -/
def State.completedFrom (s t : State) (c : Code) : Prop :=
  t.status.err = c.bits ∧ t.status.done = true ∧ t.status.errs = (s.status.errs || c != .ok) ∧ t.phase = .idle

/-- `t` completes a command from `s` with code `c`, writes `RESULT <- zext_32(v)` and nothing else. -/
def State.completesWithResult (s t : State) (c : Code) (v : Byte) : Prop :=
  s.completedFrom t c ∧ s.sameOutside t ∧ s.sameBuffers t ∧ t.result = v.setWidth 32

/-- `t` completes a command from `s` with code `c` and writes nothing. -/
def State.completesWithout (s t : State) (c : Code) : Prop :=
  s.completedFrom t c ∧ s.sameOutside t ∧ s.sameBuffers t ∧ t.result = s.result

/-- `t` completes a command from `s` with code `c`, writes the `n` bytes `f 0`, …, `f (n-1)` at the indices `0 .. n-1` of
buffer `b`, and nothing else. -/
def State.completesWithBytes (s t : State) (c : Code) (b : Buf) (n : Nat) (f : Nat → Byte) : Prop :=
  s.completedFrom t c ∧ s.sameOutside t ∧ t.result = s.result ∧
    (∀ k, k < n → t.readByte b k = f k) ∧ (∀ k, n ≤ k → t.readByte b k = s.readByte b k) ∧
    (∀ b', b' ≠ b → s.sameBuffer t b')

/-- `w` is ILLEGAL (spec/30_encoding.md R87): the decoder refuses it, and in every state its completion code is 1 and it
writes nothing. -/
def illegalWord (w : Word) : Prop :=
  (∃ why, decode w = .illegal why) ∧ ∀ s : State, execute w s = ⟨.illegal, .nothing⟩

/-- The buffer ranges a command reads (spec/10_state.md R34), as prefixes. ERASE[0..255] is 32 bytes. -/
def readRanges : Instr → List (Buf × Nat)
  | .nop => []
  | .mul _ _ _ => []
  | .inv _ _ => []
  | .eval _ L _ => [(.msg, L)]
  | .encode L N _ => [(.msg, L), (.pts, N)]
  | .solve n _ => [(.pts, n), (.sym, n)]
  | .decode _ N _ => [(.pts, N), (.sym, N), (.erase, Config.eraseBytes)]

/-- What a command writes when it reaches computation, as a destination set (spec/10_state.md R34,
spec/30_encoding.md R95). -/
def fullDest : Instr → Dest
  | .nop => .nothing
  | .mul _ _ _ => .result
  | .inv _ _ => .result
  | .eval _ _ _ => .result
  | .encode _ N _ => .bytes .sym N
  | .solve n _ => .bytes .out n
  | .decode L _ _ => .bytes .out L

/-- Two states agree on every byte of the ranges a command reads. -/
def agreeOnReads (i : Instr) (s t : State) : Prop :=
  ∀ r ∈ readRanges i, ∀ k, k < r.2 → s.readByte r.1 k = t.readByte r.1 k

/-- A CTRL write that requests a soft reset (spec/10_state.md R25). -/
def Transaction.isSoftReset (t : Transaction) : Bool := t.we && t.addr == 0x800#12 && t.wdata.getLsbD 31

/-- No hard reset comes. -/
def State.noHardReset (s : State) : Prop := ∀ keep, Turn.hardReset keep ∉ s.schedule

/-- No soft reset is pending. -/
def State.noSoftReset (s : State) : Prop := ∀ t ∈ s.pending, t.isSoftReset = false

/-- The transactions that R60 lists as held while BUSY: buffers, CMD writes and RESULT reads. -/
def Transaction.waitsForIdle (t : Transaction) : Prop :=
  t.addr.toNat % 4 = 0 ∧
    (t.addr.toNat < 0x420 ∨ (t.addr.toNat = 0x808 ∧ t.we = true) ∨ (t.addr.toNat = 0x80C ∧ t.we = false))

/-- The polynomial of a byte over GF(2) (R10): `v(x) = Σ v[i]·x^i`. -/
noncomputable def toPoly (v : Byte) : Polynomial (ZMod 2) :=
  ∑ i ∈ Finset.range 8, if v.getLsbD i then Polynomial.X ^ i else 0

/-- The reduction polynomial `P_pol(x) = x^8 + pol(x)` (R10, 90_conflicts.md C1). -/
noncomputable def redPoly (pol : Byte) : Polynomial (ZMod 2) := Polynomial.X ^ 8 + toPoly pol

/-- `P_pol` is irreducible over GF(2). -/
def irreduciblePol (pol : Byte) : Prop := Irreducible (redPoly pol)

end Sys2Proof.Machine
end

