-- ==== Sys2Proof/Certificates/Slice0/Obligations.lean ====
section
/-!
DEFINITION. The statements for the provers. Each docstring names the rule of spec/ that the statement formalises.
-/

open Sys2Proof Sys2Proof.Machine

/-! ### Reset and the invariant -/

/-- The reset state meets the invariant `State.Inv` (R28, R30, R32, R33; the clause about draws is the model's, log
entry 1). -/
def Obligations.ResetMeetsInvariant : Prop := State.reset.Inv

/-- Every step keeps the invariant, from every state that meets it: buffers canonical and within their sizes (R32, R33),
RESULT 0 above bit 7 (R30), ERR a produced code (R28), DONE and ERR 0 while BUSY (R62), the wait within T_MAX (R257). The
clause about draws is the model's (log entry 1). -/
def Obligations.StepKeepsInvariant : Prop :=
  ∀ s t : State, s.Inv → step s = .next t → t.Inv

/-- R251: a hard reset, in any state, leaves CTRL, STATUS and RESULT 0, PHASE IDLE and `irq` low, gives no response, and
every buffer byte is any value: the free value of one draw. That the draw is a new one is the model's form of "any value"
(log entry 1); what becomes of the outstanding transaction is the platform's (R60, log entry 9). -/
def Obligations.HardResetLeavesSpecState : Prop :=
  ∀ (s : State) (keep : Bool), s.nextMove = .hardReset keep →
    ∃ t, step s = .next t ∧ t.ctrlWord = 0 ∧ t.statusWord = 0 ∧ t.result = 0 ∧ t.phase = .idle ∧ t.irq = false ∧
      t.response = none ∧ (∀ b k, t.readByte b k = Config.freeByte s.draws (b.base + k)) ∧ s.draws < t.draws ∧
      t.pending = (if keep then s.pending else s.pending.tail)

/-- R252: a CTRL write with bit 31 set is never held and clears CTRL, STATUS, RESULT and PHASE in one step. While BUSY,
every byte of `dest(CUR)` becomes any value (the free value of a new draw, log entry 1) and every other byte is kept;
while IDLE every byte is kept. -/
def Obligations.SoftResetScramblesOnlyDestination : Prop :=
  ∀ (s : State) (w : Word) (rest : List Transaction),
    s.nextMove = .host → s.pending = ⟨true, 0x800#12, w⟩ :: rest → w.getLsbD 31 = true →
    ∃ t, step s = .next t ∧ t.response = some .okWrite ∧ t.pending = rest ∧
      t.ctrlWord = 0 ∧ t.statusWord = 0 ∧ t.result = 0 ∧ t.phase = .idle ∧ t.irq = false ∧
      (s.phase = .idle → s.sameBuffers t) ∧
      (s.phase = .busy → dest s.cur s = .nothing ∨ dest s.cur s = .result → s.sameBuffers t) ∧
      (s.phase = .busy → ∀ b n, dest s.cur s = .bytes b n →
        (∀ k, k < n → t.readByte b k = Config.freeByte s.draws (b.base + k)) ∧
        (∀ k, n ≤ k → t.readByte b k = s.readByte b k) ∧ (∀ b', b' ≠ b → s.sameBuffer t b'))

/-- R252, R218: when the engine step and a soft-reset write are both possible, both orders are. With the host first the
command never completes (DONE and ERR 0 after one step). With the engine first its results stand: after the two steps
every buffer byte is what the completion left, and only the registers are cleared. The order is the schedule's (log entry 4). -/
def Obligations.EngineAndSoftResetInEitherOrder : Prop :=
  ∀ (s : State) (w : Word) (rest : List Transaction) (cycles : Nat) (later : List Turn),
    s.phase = .busy → s.waited + cycles ≤ Config.tMax s.cur → w.getLsbD 31 = true →
    s.pending = ⟨true, 0x800#12, w⟩ :: rest →
    (∃ t, step { s with schedule := .host cycles :: later } = .next t ∧ t.statusWord = 0 ∧ t.phase = .idle ∧
      t.pending = rest) ∧
    (∃ t u, step { s with schedule := .engine :: .host cycles :: later } = .next t ∧ step t = .next u ∧
      t.status.err = (execute s.cur s).code.bits ∧ t.status.done = true ∧
      t.sameBuffers u ∧ u.ctrlWord = 0 ∧ u.statusWord = 0 ∧ u.result = 0 ∧ u.pending = rest)

/-! ### Encoding -/

/-- R88, R90: decoding the encoding of a well-formed command gives it back with every operand, and a word that decodes
to a command is that command's encoding, so each command has exactly one word. -/
def Obligations.DecodeAndEncodeAgree : Prop :=
  (∀ i : Instr, i.wf = true → decode (encode i) = .cmd i) ∧
  (∀ (w : Word) (i : Instr), decode w = .cmd i → i.wf = true ∧ encode i = w)

/-- R86: a word selects a command exactly when `w & mask == match` for that command's row, and a word that no row selects is
ILLEGAL. A word selects at most one row, since `decode` gives one answer. The numbers are those of the rule's table. -/
def Obligations.RowsSelectCommands : Prop :=
  ∀ w : Word,
    (decode w = .cmd .nop ↔ w &&& 0xFFFFFFFF#32 = 0x00000000#32) ∧
    ((∃ a b pol, decode w = .cmd (.mul a b pol)) ↔ w &&& 0xFF000000#32 = 0x10000000#32) ∧
    ((∃ a pol, decode w = .cmd (.inv a pol)) ↔ w &&& 0xFFFF0000#32 = 0x20000000#32) ∧
    ((∃ x L pol, decode w = .cmd (.eval x L pol)) ↔ w &&& 0xFF000000#32 = 0x30000000#32) ∧
    ((∃ L N pol, decode w = .cmd (.encode L N pol)) ↔ w &&& 0xFE000000#32 = 0x40000000#32) ∧
    ((∃ n pol, decode w = .cmd (.solve n pol)) ↔ w &&& 0xFFFF0000#32 = 0x50000000#32) ∧
    ((∃ L N pol, decode w = .cmd (.decode L N pol)) ↔ w &&& 0xFE000000#32 = 0x60000000#32) ∧
    (w &&& 0xFFFFFFFF#32 ≠ 0x00000000#32 → w &&& 0xFF000000#32 ≠ 0x10000000#32 →
      w &&& 0xFFFF0000#32 ≠ 0x20000000#32 → w &&& 0xFF000000#32 ≠ 0x30000000#32 →
      w &&& 0xFE000000#32 ≠ 0x40000000#32 → w &&& 0xFFFF0000#32 ≠ 0x50000000#32 →
      w &&& 0xFE000000#32 ≠ 0x60000000#32 → illegalWord w)

/-- R88: each field of a selected word is taken from the rule's bits. -/
def Obligations.FieldsComeFromTheirBits : Prop :=
  ∀ w : Word,
    (∀ a b pol, decode w = .cmd (.mul a b pol) →
      a.toNat = w.toNat % 256 ∧ b.toNat = w.toNat / 65536 % 256 ∧ pol.toNat = w.toNat / 256 % 256) ∧
    (∀ a pol, decode w = .cmd (.inv a pol) → a.toNat = w.toNat % 256 ∧ pol.toNat = w.toNat / 256 % 256) ∧
    (∀ x L pol, decode w = .cmd (.eval x L pol) →
      x.toNat = w.toNat % 256 ∧ L = w.toNat / 65536 % 256 ∧ pol.toNat = w.toNat / 256 % 256) ∧
    (∀ L N pol, decode w = .cmd (.encode L N pol) →
      L = w.toNat % 256 ∧ N = w.toNat / 65536 % 512 ∧ pol.toNat = w.toNat / 256 % 256) ∧
    (∀ n pol, decode w = .cmd (.solve n pol) → n = w.toNat % 256 ∧ pol.toNat = w.toNat / 256 % 256) ∧
    (∀ L N pol, decode w = .cmd (.decode L N pol) →
      L = w.toNat % 256 ∧ N = w.toNat / 65536 % 512 ∧ pol.toNat = w.toNat / 256 % 256)

/-- R87: a word with OP 0x7 to 0xF, or one with OP 0x0 to 0x6 that fails its row of R86, is ILLEGAL: a CMD
write of it while IDLE is accepted, and its completion gives code 1 and writes no buffer and no RESULT. -/
def Obligations.IllegalWordCompletesWithoutWrites : Prop :=
  ∀ (w : Word) (s : State),
    ((opField w).toNat ≥ 7 ∨ (opField w = 0 ∧ w ≠ 0) ∨
      (opField w = 1 ∧ w &&& 0xFF000000#32 ≠ 0x10000000#32) ∨ (opField w = 2 ∧ w &&& 0xFFFF0000#32 ≠ 0x20000000#32) ∨
      (opField w = 3 ∧ w &&& 0xFF000000#32 ≠ 0x30000000#32) ∨ (opField w = 4 ∧ w &&& 0xFE000000#32 ≠ 0x40000000#32) ∨
      (opField w = 5 ∧ w &&& 0xFFFF0000#32 ≠ 0x50000000#32) ∨ (opField w = 6 ∧ w &&& 0xFE000000#32 ≠ 0x60000000#32)) →
    illegalWord w ∧
    (∀ rest, s.phase = .idle → s.nextMove = .host → s.pending = ⟨true, 0x808#12, w⟩ :: rest →
      ∃ t, step s = .next t ∧ t.cur = w ∧ t.phase = .busy ∧ t.response = some .okWrite) ∧
    (s.cur = w → s.nextMove = .engine →
      ∃ t, step s = .next t ∧ t.status.err = 1 ∧ t.status.done = true ∧ t.status.errs = true ∧
        t.phase = .idle ∧ t.result = s.result ∧ s.sameBuffers t ∧ t.ctrl = s.ctrl)

/-- A few words of spec/95_test_vectors.md L2 decode to the commands listed there. -/
def Obligations.SampleWordsDecode : Prop :=
  decode 0x00000000#32 = .cmd .nop ∧ decode 0x10801D02#32 = .cmd (.mul 0x02 0x80 0x1D) ∧
  decode 0x20001D02#32 = .cmd (.inv 0x02 0x1D) ∧ decode 0x30021D03#32 = .cmd (.eval 0x03 2 0x1D) ∧
  decode 0x41001D02#32 = .cmd (.encode 2 256 0x1D) ∧ decode 0x50001D02#32 = .cmd (.solve 2 0x1D) ∧
  decode 0x612C1D02#32 = .cmd (.decode 2 300 0x1D) ∧ decode 0x42051D02#32 = .illegal .reservedField ∧
  decode 0x70000000#32 = .illegal .reservedOpcode

/-! ### The step -/

/-- The engine's step runs the command that CUR decodes to: `step` is `exec` of it (R94), after `beginStep`, which uses
one entry of the model's schedule (log entry 4), drops the last response and changes nothing else. `withFetchWord`, the
model's own (log entry 7), puts a word there. -/
def Obligations.StepRunsDecodedCommand : Prop :=
  (∀ (s : State) (i : Instr), s.nextMove = .engine → decode s.cur = .cmd i → step s = exec i s.beginStep) ∧
  (∀ s : State, s.sameArch s.beginStep ∧ s.beginStep.pending = s.pending ∧ s.beginStep.response = none ∧
    s.beginStep.schedule = s.schedule.tail ∧ s.beginStep.waited = s.waited ∧ s.beginStep.draws = s.draws) ∧
  (∀ (s : State) (w : Nat), w < 2 ^ 32 → (s.withFetchWord 32 w).nextMove = .engine ∧
    (s.withFetchWord 32 w).cur.toNat = w ∧ (s.withFetchWord 32 w).phase = .busy)

/-- R210: "GF8RS never stops, hangs or locks up on any input": every step from every state answers a next state. -/
def Obligations.EveryStepAnswersNext : Prop := ∀ s : State, ∃ t, step s = .next t

/-- R92: a host write to CMD while IDLE is accepted with an Ok response, whatever the word: CUR, PHASE, DONE and ERR are
set as the rule says, and ERRS, CTRL, RESULT and the buffers are unchanged. While BUSY it is held. -/
def Obligations.CommandAcceptance : Prop :=
  ∀ (s : State) (w : Word) (rest : List Transaction),
    s.nextMove = .host → s.pending = ⟨true, 0x808#12, w⟩ :: rest →
    (s.phase = .idle → ∃ t, step s = .next t ∧ t.cur = w ∧ t.phase = .busy ∧ t.status.done = false ∧ t.status.err = 0 ∧
      t.status.errs = s.status.errs ∧ t.ctrl = s.ctrl ∧ t.result = s.result ∧ s.sameBuffers t ∧
      t.statusWord.getLsbD 0 = true ∧ t.response = some .okWrite ∧ t.pending = rest) ∧
    (s.phase = .busy → ∃ t, step s = .next t ∧ s.sameArch t ∧ t.response = none ∧ t.pending = s.pending)

/-- R94: the engine step performs `execute(CUR)` in one transition: ERR, ERRS, DONE, PHASE, and the writes of the
command and nothing else. It is taken only while BUSY. -/
def Obligations.CompletionAppliesExecute : Prop :=
  ∀ s : State, s.nextMove = .engine →
    s.phase = .busy ∧
    ∃ t, step s = .next t ∧ s.completedFrom t (execute s.cur s).code ∧ t.ctrl = s.ctrl ∧ t.pending = s.pending ∧
      t.response = none ∧
      (match (execute s.cur s).writes with
        | .nothing => t.result = s.result ∧ s.sameBuffers t
        | .result v => t.result = v.setWidth 32 ∧ s.sameBuffers t
        | .buffer b vs => t.result = s.result ∧ (∀ b', b' ≠ b → s.sameBuffer t b') ∧
            (∀ k, t.readByte b k = if k < vs.length then vs.getD k 0 else s.readByte b k))

/-- R257, R94, R64: a command in progress, with no reset coming, completes, at most `T_MAX` clock cycles after its
acceptance, with the code and the writes that `execute(CUR)` gives from the buffers as they stand now. It takes at most one
step more than the schedule has entries; the schedule and its cycles are the model's (log entries 4 and 5). -/
def Obligations.AcceptedCommandCompletesWithinTMax : Prop :=
  ∀ s : State, s.phase = .busy → s.waited ≤ Config.tMax s.cur → s.noHardReset → s.noSoftReset →
    ∃ (k : Nat) (t : State), 1 ≤ k ∧ k ≤ s.schedule.length + 1 ∧ Host.Core.run Sys2Proof.core k s = .next t ∧
      s.waited ≤ t.waited ∧ t.waited ≤ Config.tMax s.cur ∧
      t.phase = .idle ∧ t.status.err = (execute s.cur s).code.bits ∧ t.status.done = true ∧
      ((execute s.cur s).code ≠ .ok → t.status.errs = true) ∧
      t.bufs = (s.complete (execute s.cur s)).bufs ∧ t.result = (s.complete (execute s.cur s)).result

/-- R210, R60: every outstanding transaction gets a response: with no hard reset coming, in at most two steps more than the
schedule has entries (the schedule is the model's, log entries 4 and 5). One that is held while BUSY gets it after the
completion: some earlier state `u` of the run is IDLE and shows the completion of `execute(CUR)`, with the transaction
still outstanding, and the transaction is then performed against `u`. -/
def Obligations.EveryTransactionGetsAResponse : Prop :=
  ∀ (s : State) (x : Transaction) (rest : List Transaction), s.pending = x :: rest → s.noHardReset →
    ∃ (k : Nat) (t : State), 1 ≤ k ∧ k ≤ s.schedule.length + 2 ∧ Host.Core.run Sys2Proof.core k s = .next t ∧
      t.pending = rest ∧ t.response.isSome = true ∧
      (s.phase = .busy → x.waitsForIdle →
        ∃ (j : Nat) (u : State), j < k ∧ Host.Core.run Sys2Proof.core j s = .next u ∧
          s.completedFrom u (execute s.cur s).code ∧ u.bufs = (s.complete (execute s.cur s)).bufs ∧
          u.result = (s.complete (execute s.cur s)).result ∧ u.ctrl = s.ctrl ∧ u.pending = x :: rest ∧
          t.response = (u.perform x).response ∧ t.toArch = (u.perform x).toArch)

/-- R64, R62: a step after which the same command is still in progress changes no buffer byte, not RESULT and not CUR, and
shows DONE = 0 and ERR = 0 if it did before. -/
def Obligations.NoResultByteChangesWhileBusy : Prop :=
  ∀ s t : State, s.phase = .busy → step s = .next t → t.phase = .busy →
    s.sameBuffers t ∧ t.result = s.result ∧ t.cur = s.cur ∧
      (s.status.done = false → t.status.done = false) ∧ t.status.err = s.status.err

/-- R35: CUR is not read while IDLE: two idle states that differ only in CUR step to states that differ at most in CUR. -/
def Obligations.IdleStepIgnoresCur : Prop :=
  ∀ (s t : State) (c : Word), s.phase = .idle → step s = .next t →
    ∃ u, step { s with cur := c } = .next u ∧ { u with cur := t.cur } = t

/-- R256: a STATUS read right after a CMD write sees one of two states: BUSY = 1, DONE = 0, ERR = 0, or BUSY = 0, DONE = 1
and ERR the command's code. Under every schedule with no hard reset it sees one of them, at the second or the third step.
Both are possible whatever T_MAX is; the schedule, the model's own, chooses (log entries 4 and 5). -/
def Obligations.StatusReadSeesBusyOrComplete : Prop :=
  ∀ (s : State) (w v : Word) (rest : List Transaction),
    s.phase = .idle → s.pending = ⟨true, 0x808#12, w⟩ :: ⟨false, 0x804#12, v⟩ :: rest →
    (s.noHardReset → ∃ (k : Nat) (t : State) (x : Word), (k = 2 ∨ k = 3) ∧
      Host.Core.run Sys2Proof.core k s = .next t ∧ t.pending = rest ∧ t.response = some (.okRead x) ∧
      (x.getLsbD 0 = true ∧ x.getLsbD 1 = false ∧ x.extractLsb' 4 4 = 0 ∨
        x.getLsbD 0 = false ∧ x.getLsbD 1 = true ∧ x.extractLsb' 4 4 = (execute w s).code.bits)) ∧
    (∀ (c c' : Nat) (later : List Turn), c' ≤ Config.tMax w →
      (∃ t x, Host.Core.run Sys2Proof.core 2 { s with schedule := .host c :: .host c' :: later } = .next t ∧
        t.response = some (.okRead x) ∧ x.getLsbD 0 = true ∧ x.getLsbD 1 = false ∧ x.extractLsb' 4 4 = 0) ∧
      (∃ t x, Host.Core.run Sys2Proof.core 3 { s with schedule := .host c :: .engine :: .host c' :: later } = .next t ∧
        t.response = some (.okRead x) ∧ x.getLsbD 0 = false ∧ x.getLsbD 1 = true ∧
        x.extractLsb' 4 4 = (execute w s).code.bits))

/-! ### The host port -/

/-- R59, R56: a misaligned offset, or an aligned one in 0x420-0x7FF or 0x814-0xFFF, gets `Err` at once in either phase,
and no state of GF8RS changes. -/
def Obligations.BusErrorChangesNoState : Prop :=
  ∀ (s : State) (x : Transaction) (rest : List Transaction),
    s.nextMove = .host → s.pending = x :: rest →
    (x.addr.toNat % 4 ≠ 0 ∨ (0x420 ≤ x.addr.toNat ∧ x.addr.toNat ≤ 0x7FF) ∨ 0x814 ≤ x.addr.toNat) →
    ∃ t, step s = .next t ∧ s.sameArch t ∧ t.irq = s.irq ∧ t.pending = rest ∧
      t.busReady = true ∧ t.busErr = true ∧
      (x.we = true → t.response = some .errWrite) ∧ (x.we = false → ∃ v, t.response = some (.errRead v))

/-- R60: while BUSY, buffer accesses, CMD writes and RESULT reads are held: no response, no change, still outstanding.
Every other transaction, and every transaction while IDLE, is performed at once. -/
def Obligations.HeldTransactionsWaitForIdle : Prop :=
  ∀ (s : State) (x : Transaction) (rest : List Transaction),
    s.nextMove = .host → s.pending = x :: rest →
    (s.phase = .busy → x.waitsForIdle →
      ∃ t, step s = .next t ∧ s.sameArch t ∧ t.response = none ∧ t.pending = s.pending) ∧
    ((s.phase = .busy → ¬ x.waitsForIdle) →
      ∃ t, step s = .next t ∧ t.response.isSome = true ∧ t.pending = rest)

/-- R57: the word at `B + 4w` of a byte buffer packs `X[4w] .. X[4w+3]` little-endian: a read returns it, and a write
stores its four bytes and no other byte of any buffer. -/
def Obligations.BufferWordsAreLittleEndian : Prop :=
  ∀ (s : State) (b : Buf) (w : Nat) (v : Word) (we : Bool) (rest : List Transaction), b ≠ .erase → w < 64 →
    s.phase = .idle → s.nextMove = .host → s.pending = ⟨we, BitVec.ofNat 12 (b.base + 4 * w), v⟩ :: rest →
    (we = false → ∃ t r, step s = .next t ∧ s.sameArch t ∧ t.pending = rest ∧ t.response = some (.okRead r) ∧
      ∀ i, i < 4 → r.extractLsb' (8 * i) 8 = s.readByte b (4 * w + i)) ∧
    (we = true → ∃ t, step s = .next t ∧ t.response = some .okWrite ∧ t.pending = rest ∧
      (∀ i, i < 4 → t.readByte b (4 * w + i) = v.extractLsb' (8 * i) 8) ∧
      (∀ k, k < 4 * w ∨ 4 * w + 4 ≤ k → t.readByte b k = s.readByte b k) ∧
      (∀ b', b' ≠ b → s.sameBuffer t b') ∧ t.ctrl = s.ctrl ∧ t.status = s.status ∧ t.result = s.result ∧
      t.phase = s.phase ∧ t.cur = s.cur)

/-- R58: the word at `0x400 + 4w` holds `ERASE[32w + b]` in bit `b`: a read returns it, and a write sets all 32 bits and no
other bit of ERASE and no other buffer. -/
def Obligations.EraseWordsHoldPositions : Prop :=
  ∀ (s : State) (w : Nat) (v : Word) (we : Bool) (rest : List Transaction), w < 8 →
    s.phase = .idle → s.nextMove = .host → s.pending = ⟨we, BitVec.ofNat 12 (0x400 + 4 * w), v⟩ :: rest →
    (we = false → ∃ t r, step s = .next t ∧ s.sameArch t ∧ t.pending = rest ∧ t.response = some (.okRead r) ∧
      ∀ b, b < 32 → r.getLsbD b = s.eraseBit (32 * w + b)) ∧
    (we = true → ∃ t, step s = .next t ∧ t.response = some .okWrite ∧ t.pending = rest ∧
      (∀ b, b < 32 → t.eraseBit (32 * w + b) = v.getLsbD b) ∧
      (∀ p, p < 32 * w ∨ 32 * w + 32 ≤ p → t.eraseBit p = s.eraseBit p) ∧
      (∀ b', b' ≠ .erase → s.sameBuffer t b') ∧ t.ctrl = s.ctrl ∧ t.status = s.status ∧ t.result = s.result ∧
      t.phase = s.phase ∧ t.cur = s.cur)

/-- R61: no read of any location has a side effect, a read of CMD returns 0, a read of ID returns 0x47460801 in either
phase (R31), and writes to RESULT and ID are performed and ignored. -/
def Obligations.ReadsHaveNoSideEffect : Prop :=
  ∀ (s : State) (x : Transaction) (rest : List Transaction), s.nextMove = .host → s.pending = x :: rest →
    (x.we = false → ∃ t, step s = .next t ∧ s.sameArch t ∧
      (x.addr = 0x808#12 → t.response = some (.okRead 0)) ∧
      (x.addr = 0x810#12 → t.response = some (.okRead 0x47460801#32))) ∧
    (x.we = true → x.addr = 0x80C#12 ∨ x.addr = 0x810#12 →
      ∃ t, step s = .next t ∧ s.sameArch t ∧ t.response = some .okWrite ∧ t.pending = rest)

/-- R30: a RESULT read while IDLE returns RESULT. R26, R24: the STATUS and CTRL words, bit by bit, reserved bits 0; they are
read in either phase. -/
def Obligations.RegisterReadsReturnTheirBits : Prop :=
  ∀ (s : State) (a : Offset) (v : Word) (rest : List Transaction),
    s.nextMove = .host → s.pending = ⟨false, a, v⟩ :: rest →
    (a = 0x80C#12 → s.phase = .idle → ∃ t, step s = .next t ∧ t.response = some (.okRead s.result)) ∧
    (a = 0x804#12 → ∃ t r, step s = .next t ∧ t.response = some (.okRead r) ∧
      (r.getLsbD 0 = true ↔ s.phase = .busy) ∧ r.getLsbD 1 = s.status.done ∧ r.extractLsb' 2 2 = 0 ∧
      r.extractLsb' 4 4 = s.status.err ∧ r.getLsbD 8 = s.status.errs ∧ r.extractLsb' 9 23 = 0) ∧
    (a = 0x800#12 → ∃ t r, step s = .next t ∧ t.response = some (.okRead r) ∧
      r.getLsbD 0 = s.ctrl.doneIe ∧ r.getLsbD 1 = s.ctrl.errIe ∧ r.extractLsb' 2 30 = 0)

/-- R25: a CTRL write is never held. With bit 31 set it performs the soft reset, and CTRL becomes 0, whatever bits 1:0 hold.
With bit 31 clear DONE_IE and ERR_IE take bits 0 and 1 at once, also while BUSY, so that `irq` follows them, and nothing
else changes. -/
def Obligations.CtrlWriteSetsEnables : Prop :=
  ∀ (s : State) (w : Word) (rest : List Transaction),
    s.nextMove = .host → s.pending = ⟨true, 0x800#12, w⟩ :: rest →
    ∃ t, step s = .next t ∧ t.response = some .okWrite ∧ t.pending = rest ∧
      (w.getLsbD 31 = true → t.toArch = s.softReset.toArch ∧ t.ctrlWord = 0) ∧
      (w.getLsbD 31 = false → t.ctrlWord = w &&& 3#32 ∧ t.status = s.status ∧ t.result = s.result ∧
        t.bufs = s.bufs ∧ t.phase = s.phase ∧ t.cur = s.cur ∧
        t.irq = ((s.status.done && w.getLsbD 0) || (s.status.errs && w.getLsbD 1)))

/-- R27: a STATUS write is never held, clears DONE and ERRS where bits 1 and 8 of the written word are 1, and ignores every
other bit. -/
def Obligations.StatusWriteClearsFlags : Prop :=
  ∀ (s : State) (w : Word) (rest : List Transaction),
    s.nextMove = .host → s.pending = ⟨true, 0x804#12, w⟩ :: rest →
    ∃ t, step s = .next t ∧ t.response = some .okWrite ∧ t.pending = rest ∧
      t.statusWord = s.statusWord &&& ~~~(w &&& 0x102#32) ∧
      t.ctrl = s.ctrl ∧ t.result = s.result ∧ t.bufs = s.bufs ∧ t.phase = s.phase ∧ t.cur = s.cur

/-- R216: `irq = (STATUS.DONE & CTRL.DONE_IE) | (STATUS.ERRS & CTRL.ERR_IE)`, in terms of the words the host reads. A W1C
write of both bits, and a write that clears both enables, leave it low at once. -/
def Obligations.InterruptLineFollowsFlags : Prop :=
  (∀ s : State, s.irq = ((s.statusWord.getLsbD 1 && s.ctrlWord.getLsbD 0) ||
    (s.statusWord.getLsbD 8 && s.ctrlWord.getLsbD 1))) ∧
  (∀ (s : State) (w : Word) (rest : List Transaction), s.nextMove = .host →
    (s.pending = ⟨true, 0x804#12, w⟩ :: rest ∧ w &&& 0x102#32 = 0x102#32 ∨
      s.pending = ⟨true, 0x800#12, w⟩ :: rest ∧ w &&& 3#32 = 0) →
    ∃ t, step s = .next t ∧ t.irq = false)

/-! ### Field arithmetic -/

/-- R113: for every `a`, `b` and `pol`, including a reducible one, `gf_mul(a, b, pol)` is `(a(x)·b(x)) mod P_pol(x)` over
GF(2). -/
def Obligations.GfMulIsProductModuloPol : Prop :=
  ∀ a b pol : Byte, toPoly (gfMul a b pol) = (toPoly a * toPoly b).modByMonic (redPoly pol)

/-- R114: the laws of `gf_mul`, for every `pol`. If `P_pol` is irreducible the bytes form a field: every nonzero one has an
inverse, and there are no zero divisors. If it is reducible there are some. -/
def Obligations.GfMulLaws : Prop :=
  (∀ a b pol : Byte, gfMul a b pol = gfMul b a pol) ∧
  (∀ a b c pol : Byte, gfMul (gfMul a b pol) c pol = gfMul a (gfMul b c pol) pol) ∧
  (∀ a b c pol : Byte, gfMul a (gfAdd b c) pol = gfAdd (gfMul a b pol) (gfMul a c pol)) ∧
  (∀ a pol : Byte, gfMul a 1 pol = a ∧ gfMul a 0 pol = 0) ∧
  (∀ pol : Byte, irreduciblePol pol → ∀ a b : Byte, gfMul a b pol = 0 → a = 0 ∨ b = 0) ∧
  (∀ pol : Byte, irreduciblePol pol → ∀ a : Byte, a ≠ 0 → ∃ b : Byte, gfMul a b pol = 1) ∧
  (∀ pol : Byte, ¬ irreduciblePol pol → ∃ a b : Byte, a ≠ 0 ∧ b ≠ 0 ∧ gfMul a b pol = 0) ∧
  gfMul 0x10 0x10 0x00 = 0x00

/-- R116: `gf_inv(a, pol)` is `a(x)^254 mod P_pol(x)` for every `pol`; `gf_inv(0) = 0` and `gf_inv(1) = 1`. -/
def Obligations.GfInvIsPower254 : Prop :=
  (∀ a pol : Byte, toPoly (gfInv a pol) = ((toPoly a) ^ 254).modByMonic (redPoly pol)) ∧
  (∀ pol : Byte, gfInv 0 pol = 0 ∧ gfInv 1 pol = 1)

/-- R118: `inv_ok(0)` is false for every `pol`; under an irreducible one `inv_ok(a)` holds for every `a ≠ 0`, and
`gf_inv(a)` is the unique inverse; under a reducible one it can fail for a nonzero `a`, even for one that has an inverse
modulo `P_pol` (the rule's example: 0x03, whose inverse under `pol = 0` is 0xFF). -/
def Obligations.InverseCheckConsequences : Prop :=
  (∀ pol : Byte, invOk 0 pol = false) ∧
  (∀ pol : Byte, irreduciblePol pol → ∀ a : Byte, a ≠ 0 → invOk a pol = true ∧
    ∀ y : Byte, gfMul a y pol = 1 ↔ y = gfInv a pol) ∧
  (gfInv 0x03 0x00 = 0x55 ∧ gfMul 0x03 0x55 0x00 = 0xFF ∧ invOk 0x03 0x00 = false ∧ gfMul 0x03 0xFF 0x00 = 1) ∧
  (∀ a : Byte, (invOk a 0x1D = false ↔ a = 0) ∧ (invOk a 0x1B = false ↔ a = 0))

/-- R121: GF(2^8) division `a / b` with `b = 0` gives 0, and where `inv_ok(b)` holds it undoes the product by `b`. -/
def Obligations.FieldDivision : Prop :=
  (∀ a pol : Byte, gfMul a (gfInv 0 pol) pol = 0) ∧
  (∀ a b pol : Byte, invOk b pol = true → gfMul (gfMul a b pol) (gfInv b pol) pol = a)

/-! ### The commands: results, frames and completion

"Nothing else" in the docstrings below is every other buffer byte, RESULT, CTRL, the port and the model's own fields. Of
CUR, which is unspecified after a completion (R35), these statements say nothing. -/

/-- R200: NOP is the word 0 exactly, completes with code 0 and writes nothing; a word of OP 0 with any of bits 27:0 set is
ILLEGAL. -/
def Obligations.NopOnlyCompletes : Prop :=
  (∀ s : State, ∃ t, exec .nop s = .next t ∧ s.completesWithout t .ok) ∧
  decode 0#32 = .cmd .nop ∧ encode .nop = 0#32 ∧
  (∀ w : Word, opField w = 0 → w.extractLsb' 0 28 ≠ 0 → illegalWord w)

/-- R119: MUL writes `zext_32(gf_mul(a, b, pol))` to RESULT, completes with code 0 and changes nothing else; its corner
cases, its encoding and its ILLEGAL words. Under `pol = 0` the value is the low 8 bits of the carry-less product. -/
def Obligations.MulWritesProduct : Prop :=
  (∀ (a b pol : Byte) (s : State), ∃ t, exec (.mul a b pol) s = .next t ∧
    s.completesWithResult t .ok (gfMul a b pol)) ∧
  (∀ a b pol : Byte, gfMul 0 b pol = 0 ∧ gfMul a 0 pol = 0 ∧ gfMul a 1 pol = a) ∧
  (∀ a b : Byte, gfMul a b 0 =
    (List.range 8).foldl (fun p i => if b.getLsbD i then p ^^^ (a <<< i) else p) 0) ∧
  (∀ a b pol : Byte, decode (0x10000000#32 ||| (b.setWidth 32 <<< 16) ||| (pol.setWidth 32 <<< 8) ||| a.setWidth 32) =
    .cmd (.mul a b pol)) ∧
  (∀ w : Word, opField w = 1 → w.extractLsb' 24 4 ≠ 0 → illegalWord w) ∧
  (decode 0x10801D02#32 = .cmd (.mul 0x02 0x80 0x1D) ∧ gfMul 0x02 0x80 0x1D = 0x1D)

/-- R120: INV writes `zext_32(gf_inv(a, pol))` to RESULT, completes with code 0 or, when the inverse check fails, with code
5, and changes nothing else; its corner cases, its encoding and its ILLEGAL words. -/
def Obligations.InvWritesInverseAndReports : Prop :=
  (∀ (a pol : Byte) (s : State), ∃ t, exec (.inv a pol) s = .next t ∧
    s.completesWithResult t (if gfMul a (gfInv a pol) pol = 1 then .ok else .noninv) (gfInv a pol)) ∧
  (∀ pol : Byte, gfInv 0 pol = 0 ∧ invOk 0 pol = false ∧ gfInv 1 pol = 1 ∧ invOk 1 pol = true) ∧
  (∀ a pol : Byte, a ≠ 0 → invOk a pol = false → ¬ irreduciblePol pol) ∧
  (∀ a pol : Byte, irreduciblePol pol → a ≠ 0 → gfInv (gfInv a pol) pol = a) ∧
  (∀ a pol : Byte, decode (0x20000000#32 ||| (pol.setWidth 32 <<< 8) ||| a.setWidth 32) = .cmd (.inv a pol)) ∧
  (∀ w : Word, opField w = 2 → w.extractLsb' 16 12 ≠ 0 → illegalWord w) ∧
  (decode 0x20001D02#32 = .cmd (.inv 0x02 0x1D) ∧ gfInv 0x02 0x1D = 0x8E ∧ invOk 0x02 0x1D = true ∧
    decode 0x20001D00#32 = .cmd (.inv 0x00 0x1D))

/-- R142: EVAL with `L ≥ 1` writes `zext_32(horner(L, x, pol))` to RESULT and completes with code 0, changing nothing else;
with `L = 0` it completes with code 2 and writes nothing. Its corner cases, its encoding, its ILLEGAL words and its
example. -/
def Obligations.EvalWritesHornerValue : Prop :=
  (∀ (x : Byte) (L : Nat) (pol : Byte) (s : State), 1 ≤ L → ∃ t, exec (.eval x L pol) s = .next t ∧
    s.completesWithResult t .ok (horner (s.elements .msg L) x pol)) ∧
  (∀ (x pol : Byte) (s : State), ∃ t, exec (.eval x 0 pol) s = .next t ∧ s.completesWithout t .length) ∧
  (∀ (L : Nat) (x pol : Byte) (s : State), 1 ≤ L → horner (s.elements .msg L) 0 pol = s.readByte .msg 0 ∧
    horner (s.elements .msg L) 1 pol = (s.elements .msg L).foldl gfAdd 0 ∧
    horner (s.elements .msg 1) x pol = s.readByte .msg 0) ∧
  (∀ x b pol : Byte, decode (0x30000000#32 ||| (b.setWidth 32 <<< 16) ||| (pol.setWidth 32 <<< 8) ||| x.setWidth 32) =
    .cmd (.eval x b.toNat pol)) ∧
  (∀ w : Word, opField w = 3 → w.extractLsb' 24 4 ≠ 0 → illegalWord w) ∧
  (decode 0x30021D03#32 = .cmd (.eval 0x03 2 0x1D) ∧ horner [0x48, 0x49] 0x03 0x1D = 0x93)

/-- R141: `horner(L, x, pol)` is `Σ MSG[k]·x^k mod P_pol` for every `pol`, and its particular values: `MSG[0]` at `x = 0`,
the XOR of the coefficients at `x = 1`, and `MSG[0]` for `L = 1`. -/
def Obligations.HornerIsPolynomialValue : Prop :=
  ∀ (s : State) (L : Nat) (x pol : Byte), 1 ≤ L →
    toPoly (horner (s.elements .msg L) x pol) =
      (∑ k ∈ Finset.range L, toPoly (s.readByte .msg k) * (toPoly x) ^ k).modByMonic (redPoly pol) ∧
    horner (s.elements .msg L) 0 pol = s.readByte .msg 0 ∧
    horner (s.elements .msg L) 1 pol = (s.elements .msg L).foldl gfAdd 0 ∧
    horner (s.elements .msg 1) x pol = s.readByte .msg 0

/-- R143: ENCODE with `L ≥ 1` and `N ≤ 256` writes `SYM[i] <- horner(L, PTS[i], pol)` for `i < N`, completes with code 0 and
changes no other byte, not RESULT and nothing else; with `L = 0` or `N > 256` it completes with code 2 and writes nothing.
Its encoding, its ILLEGAL words and its example. -/
def Obligations.EncodeWritesSymbols : Prop :=
  (∀ (L N : Nat) (pol : Byte) (s : State), 1 ≤ L → N ≤ 256 → ∃ t, exec (.encode L N pol) s = .next t ∧
    s.completesWithBytes t .ok .sym N fun i => horner (s.elements .msg L) (s.readByte .pts i) pol) ∧
  (∀ (L N : Nat) (pol : Byte) (s : State), L = 0 ∨ 256 < N → ∃ t, exec (.encode L N pol) s = .next t ∧
    s.completesWithout t .length) ∧
  (∀ (n : BitVec 9) (l pol : Byte),
    decode (0x40000000#32 ||| (n.setWidth 32 <<< 16) ||| (pol.setWidth 32 <<< 8) ||| l.setWidth 32) =
      .cmd (.encode l.toNat n.toNat pol)) ∧
  (∀ w : Word, opField w = 4 → w.extractLsb' 25 3 ≠ 0 → illegalWord w) ∧
  decode 0x40051D02#32 = .cmd (.encode 2 5 0x1D) ∧
  [0x00, 0x01, 0x02, 0x03, 0x04].map (fun x => horner [0x48, 0x49] x 0x1D) = [0x48, 0x01, 0xDA, 0x93, 0x71]

/-- R144: each output `SYM[i]` of ENCODE is a function of `MSG[0..L-1]`, `PTS[i]` and `pol` alone: two states that agree on
these, whatever else they hold and whatever lane `j` of the other the point stands in, give the same symbol. -/
def Obligations.EncodeLanesAreIndependent : Prop :=
  ∀ (L N N' i j : Nat) (pol : Byte) (s s' t t' : State), 1 ≤ L → N ≤ 256 → N' ≤ 256 → i < N → j < N' →
    (∀ k, k < L → s.readByte .msg k = s'.readByte .msg k) → s.readByte .pts i = s'.readByte .pts j →
    exec (.encode L N pol) s = .next t → exec (.encode L N' pol) s' = .next t' →
    t.readByte .sym i = t'.readByte .sym j

/-- R165: SOLVE writes `OUT[i] <- C[i]` of `gj_solve(n, PTS[0..n-1], SYM[0..n-1], pol)` for `i < n` and completes with code 0,
or 6 if a pivot faults, in both cases with all of OUT[0..n-1] written and nothing else. Its encoding, its ILLEGAL words and
its example. -/
def Obligations.SolveWritesCoefficients : Prop :=
  (∀ (n : Nat) (pol : Byte) (s : State), ∃ t, exec (.solve n pol) s = .next t ∧
    s.completesWithBytes t
      (if (gjSolve n (s.elements .pts n) (s.elements .sym n) pol).2 = true then .singular else .ok) .out n
      fun i => (gjSolve n (s.elements .pts n) (s.elements .sym n) pol).1.getD i 0) ∧
  (∀ n pol : Byte, decode (0x50000000#32 ||| (pol.setWidth 32 <<< 8) ||| n.setWidth 32) = .cmd (.solve n.toNat pol)) ∧
  (∀ w : Word, opField w = 5 → w.extractLsb' 16 12 ≠ 0 → illegalWord w) ∧
  decode 0x50001D02#32 = .cmd (.solve 2 0x1D) ∧
  gjSolve 2 [0x02, 0x03] [0xDA, 0x93] 0x1D = ([0x48, 0x49], false)

/-- R166 (first part): under an irreducible `pol` and pairwise distinct points no pivot faults, the matrix after elimination
is diagonal with a nonzero diagonal, and the coefficients are the unique solution of `V[j] = Σ C[i]·P[j]^i`. Here the sum is
the Horner value, which R141 says it equals. -/
def Obligations.RegularSystemsAreSolved : Prop :=
  ∀ (n : Nat) (ps vs : List Byte) (pol : Byte), n ≤ 255 → ps.length = n → vs.length = n →
    irreduciblePol pol → ps.Nodup →
    (gjSolve n ps vs pol).2 = false ∧
    (∀ i j, i < n → j < n →
      ((eliminate n pol ⟨vandermonde n ps vs pol, false⟩).w.entry i j = 0 ↔ i ≠ j)) ∧
    ps.map (fun x => horner (gjSolve n ps vs pol).1 x pol) = vs ∧
    (∀ cs : List Byte, cs.length = n → ps.map (fun x => horner cs x pol) = vs → cs = (gjSolve n ps vs pol).1)

/-- R166 (second part): for any `pol`, also a reducible one, if no pivot faults then the coefficients satisfy all `n`
equations modulo `P_pol`. -/
def Obligations.SolutionWithoutPivotFaultIsExact : Prop :=
  ∀ (n : Nat) (ps vs : List Byte) (pol : Byte), n ≤ 255 → ps.length = n → vs.length = n →
    (gjSolve n ps vs pol).2 = false → ps.map (fun x => horner (gjSolve n ps vs pol).1 x pol) = vs

/-- R167: duplicate points are reported, under every `pol`: SOLVE completes with code 6. Its other corner cases: `n = 0`
writes nothing and gives code 0, and `n = 1` gives `C[0] = V[0]` whatever `P[0]` is. -/
def Obligations.DuplicatePointsAreSingular : Prop :=
  (∀ (n : Nat) (pol : Byte) (s : State) (i j : Nat), n ≤ 255 → i < j → j < n →
    s.readByte .pts i = s.readByte .pts j →
    ∃ t, exec (.solve n pol) s = .next t ∧ t.status.err = 6 ∧ t.status.errs = true) ∧
  (∀ (pol : Byte) (s : State), ∃ t, exec (.solve 0 pol) s = .next t ∧ s.completesWithout t .ok) ∧
  (∀ (pol : Byte) (s : State), ∃ t, exec (.solve 1 pol) s = .next t ∧
    s.completesWithBytes t .ok .out 1 fun _ => s.readByte .sym 0)

/-- R182: DECODE checks, in this order, `N > 256` (code 2), an erased position at or above `N` (code 4), and fewer than
`L` survivors (code 3), each completing without a write. Otherwise it solves for the first `L` survivors in increasing
order, writes OUT[0..L-1] and completes with code 0, or 6 if a pivot faults. Its encoding, its ILLEGAL words and its example. -/
def Obligations.DecodeChecksThenSolves : Prop :=
  (∀ (L N : Nat) (pol : Byte) (s : State), 256 < N → ∃ t, exec (.decode L N pol) s = .next t ∧
    s.completesWithout t .length) ∧
  (∀ (L N : Nat) (pol : Byte) (s : State), N ≤ 256 → (∃ p, N ≤ p ∧ p ≤ 255 ∧ s.eraseBit p = true) →
    ∃ t, exec (.decode L N pol) s = .next t ∧ s.completesWithout t .eraseRange) ∧
  (∀ (L N : Nat) (pol : Byte) (s : State), N ≤ 256 → (∀ p, N ≤ p → p ≤ 255 → s.eraseBit p = false) →
    (s.survivors N).length < L → ∃ t, exec (.decode L N pol) s = .next t ∧ s.completesWithout t .insufficient) ∧
  (∀ (L N : Nat) (pol : Byte) (s : State), N ≤ 256 → (∀ p, N ≤ p → p ≤ 255 → s.eraseBit p = false) →
    L ≤ (s.survivors N).length →
    ∃ t C pf, exec (.decode L N pol) s = .next t ∧
      gjSolve L (((s.survivors N).take L).map (s.readByte .pts)) (((s.survivors N).take L).map (s.readByte .sym)) pol =
        (C, pf) ∧
      s.completesWithBytes t (if pf = true then .singular else .ok) .out L fun i => C.getD i 0) ∧
  (∀ (n : BitVec 9) (l pol : Byte),
    decode (0x60000000#32 ||| (n.setWidth 32 <<< 16) ||| (pol.setWidth 32 <<< 8) ||| l.setWidth 32) =
      .cmd (.decode l.toNat n.toNat pol)) ∧
  (∀ w : Word, opField w = 6 → w.extractLsb' 25 3 ≠ 0 → illegalWord w) ∧
  (decode 0x60051D02#32 = .cmd (.decode 2 5 0x1D) ∧
    (∀ s : State, (∀ p, p ≤ 255 → s.eraseBit p = decide (p < 2)) → s.survivors 5 = [2, 3, 4]) ∧
    gjSolve 2 [0x02, 0x03] [0xDA, 0x93] 0x1D = ([0x48, 0x49], false))

/-- R181: the survivors are exactly the positions `p < N` with `ERASE[p] = 0`, in increasing order. -/
def Obligations.SurvivorsAreUnerasedPositions : Prop :=
  ∀ (s : State) (N : Nat),
    (∀ p, p ∈ s.survivors N ↔ p < N ∧ s.eraseBit p = false) ∧ (s.survivors N).Pairwise (· < ·)

/-- R183: the round trip. If `P_pol` is irreducible, the points are pairwise distinct, `1 ≤ L ≤ survivors(N)`, `N ≤ 256`, no
ERASE bit at or above `N` is set, and every survivor's symbol is the message's value at its point, then DECODE writes the
message to OUT[0..L-1] and completes with code 0. -/
def Obligations.DecodeRecoversMessage : Prop :=
  ∀ (L N : Nat) (pol : Byte) (s : State) (msg : List Byte),
    irreduciblePol pol → (s.elements .pts N).Nodup → 1 ≤ L → L ≤ 255 → L ≤ (s.survivors N).length → N ≤ 256 →
    (∀ p, N ≤ p → p ≤ 255 → s.eraseBit p = false) → msg.length = L →
    (∀ p ∈ s.survivors N, s.readByte .sym p = horner msg (s.readByte .pts p) pol) →
    ∃ t, exec (.decode L N pol) s = .next t ∧ s.completesWithBytes t .ok .out L fun i => msg.getD i 0

/-- R184: only `SYM[p]` and `PTS[p]` for `p` among the first `L` survivors affect OUT and the code: two states with the same
ERASE bits that agree at those positions give the same code and the same OUT[0..L-1]. -/
def Obligations.DecodeUsesOnlyChosenSurvivors : Prop :=
  ∀ (L N : Nat) (pol : Byte) (s s' : State),
    (∀ p, p ≤ 255 → s.eraseBit p = s'.eraseBit p) →
    (∀ p ∈ (s.survivors N).take L, s.readByte .pts p = s'.readByte .pts p ∧ s.readByte .sym p = s'.readByte .sym p) →
    effectOf (.decode L N pol) s = effectOf (.decode L N pol) s'

/-! ### All commands -/

/-- R37: the completion code and every value a command writes are a function of the command and the ranges it reads
(R34), whatever earlier commands, CTRL and STATUS were. -/
def Obligations.CommandsAreStateless : Prop :=
  ∀ (i : Instr) (s s' : State), agreeOnReads i s s' → effectOf i s = effectOf i s'

/-- R34, R30: every command completes, and no byte outside its range of R34 changes, nor RESULT unless it is MUL, INV or
EVAL, nor CTRL, the port or the model's own fields. That CUR keeps its word is the model's choice (log entry 3). -/
def Obligations.CommandsWriteOnlyTheirRange : Prop :=
  ∀ (i : Instr) (s : State), ∃ t, exec i s = .next t ∧ s.sameOutside t ∧ t.phase = .idle ∧ t.status.done = true ∧
    t.cur = s.cur ∧ (fullDest i ≠ .result → t.result = s.result) ∧
    (∀ b k, (∀ n, fullDest i = .bytes b n → n ≤ k) → t.readByte b k = s.readByte b k)

/-- R214, R95: a command that completes with code 1, 2, 3 or 4 has no effect except on STATUS and PHASE, and its destination
set is empty; with code 0, 5 or 6 the destination set is that of the command, and all of it is written: RESULT, or the
whole range of the buffer. -/
def Obligations.FailedCommandsWriteNothing : Prop :=
  ∀ (w : Word) (s : State),
    ((execute w s).code ∈ [Code.illegal, .length, .insufficient, .eraseRange] →
      (execute w s).writes = .nothing ∧ dest w s = .nothing) ∧
    ((execute w s).code ∈ [Code.ok, .noninv, .singular] → ∀ i, decode w = .cmd i →
      dest w s = fullDest i ∧
      (fullDest i = .nothing → (execute w s).writes = .nothing) ∧
      (fullDest i = .result → ∃ v, (execute w s).writes = .result v) ∧
      (∀ b n, fullDest i = .bytes b n → ∃ vs, vs.length = n ∧ (execute w s).writes = .buffer b vs))

/-- R213: the priority of the codes: an ILLEGAL word reports 1 whatever the buffers hold; then LENGTH, then ERASE_RANGE, then
INSUFFICIENT come before any code of the computation; NONINV and SINGULAR belong to different commands. -/
def Obligations.CompletionCodePriority : Prop :=
  (∀ (w : Word) (s : State) (why : IllegalReason), decode w = .illegal why → (execute w s).code = .illegal) ∧
  (∀ (x : Byte) (L N : Nat) (pol : Byte) (s : State), (L = 0 → (effectOf (.eval x L pol) s).code = .length) ∧
    (L = 0 ∨ 256 < N → (effectOf (.encode L N pol) s).code = .length)) ∧
  (∀ (L N : Nat) (pol : Byte) (s : State), 256 < N → (effectOf (.decode L N pol) s).code = .length) ∧
  (∀ (L N : Nat) (pol : Byte) (s : State), N ≤ 256 → s.eraseOutOfRange N = true →
    (effectOf (.decode L N pol) s).code = .eraseRange) ∧
  (∀ (L N : Nat) (pol : Byte) (s : State), N ≤ 256 → s.eraseOutOfRange N = false → (s.survivors N).length < L →
    (effectOf (.decode L N pol) s).code = .insufficient) ∧
  (∀ (i : Instr) (s : State), (effectOf i s).code = .noninv → ∃ a pol, i = .inv a pol) ∧
  (∀ (i : Instr) (s : State), (effectOf i s).code = .singular →
    (∃ n pol, i = .solve n pol) ∨ ∃ L N pol, i = .decode L N pol)

/-! ### The solver's values, also where a pivot faults -/

/-- R161 to R164: whatever table `W` follows the rules entry by entry (`W 0` is the augmented matrix of R161, and `W (i+1)`
is `W i` after pivot step `i` of R162), `gj_solve` gives R163's quotients from `W n`, and the pivot-fault bit of R164: some
diagonal element fails `inv_ok` at its use in R162 or in R163. A faulting pivot changes no value: the equations are the
same. Under an irreducible `pol`, `inv_ok(p)` fails exactly for `p = 0`. -/
def Obligations.SolverFollowsTheRules : Prop :=
  (∀ (n : Nat) (ps vs : List Byte) (pol : Byte) (W : Nat → Nat → Nat → Byte),
    n ≤ 255 → ps.length = n → vs.length = n →
    (∀ j, j < n → W 0 j 0 = 1 ∧ (∀ i, 1 ≤ i → i < n → W 0 j i = gfMul (W 0 j (i - 1)) (ps.getD j 0) pol) ∧
      W 0 j n = vs.getD j 0) →
    (∀ i j m, i < n → j < n → m ≤ n → W (i + 1) j m =
      if j = i then W i j m
      else gfAdd (W i j m) (gfMul (gfMul (W i j i) (gfInv (W i i i) pol) pol) (W i i m) pol)) →
    (gjSolve n ps vs pol).1.length = n ∧
    (∀ i, i < n → (gjSolve n ps vs pol).1.getD i 0 = gfMul (W n i n) (gfInv (W n i i) pol) pol) ∧
    ((gjSolve n ps vs pol).2 = true ↔ ∃ i, i < n ∧ (invOk (W i i i) pol = false ∨ invOk (W n i i) pol = false))) ∧
  (∀ p pol : Byte, irreduciblePol pol → (invOk p pol = false ↔ p = 0))

/-- R167, the values of a solve whose pivot faults: a zero pivot changes no row, and a diagonal element that is still 0 at the
division gives coefficient 0. The rule's examples, as SOLVE writes them with code 6: the points 05 05 with the values 11 22
give 11 00 (and a matrix that is not diagonal), and under `pol = 0` the points 00 02 give `V[0]` and 00. The row of point
0 is `1, 0, …, 0, V`. -/
def Obligations.FaultingSolveValues : Prop :=
  (∀ (n i : Nat) (pol : Byte) (k : Work), i < n → k.w.length = n → (∀ r ∈ k.w, r.length = n + 1) →
    k.w.entry i i = 0 → (pivotStep n pol k i).w = k.w ∧ (pivotStep n pol k i).pf = true) ∧
  (∀ (n i : Nat) (pol : Byte) (w : WorkMatrix), i < n → w.entry i i = 0 →
    (divideDiagonal n pol w)[i]? = some 0 ∧ diagonalFaults n pol w = true) ∧
  (∀ (n : Nat) (pol v : Byte), vandermondeRow (n + 1) pol 0 v = 1 :: List.replicate n 0 ++ [v]) ∧
  (∀ (s : State) (pol : Byte), s.readByte .pts 0 = 0x05 → s.readByte .pts 1 = 0x05 → s.readByte .sym 0 = 0x11 →
    s.readByte .sym 1 = 0x22 → ∃ t, exec (.solve 2 pol) s = .next t ∧
      s.completesWithBytes t .singular .out 2 fun i => [0x11, 0x00].getD i 0) ∧
  (∀ pol : Byte, (eliminate 2 pol ⟨vandermonde 2 [0x05, 0x05] [0x11, 0x22] pol, false⟩).w =
    [[0x01, 0x05, 0x11], [0x00, 0x00, 0x33]]) ∧
  (∀ s : State, s.readByte .pts 0 = 0x00 → s.readByte .pts 1 = 0x02 →
    ∃ t, exec (.solve 2 0x00) s = .next t ∧
      s.completesWithBytes t .singular .out 2 fun i => [s.readByte .sym 0, 0x00].getD i 0)
end

