-- ==== Sys2Proof/Laws/Memory.lean ====
section
/-!
SUPPORT. The laws of memory and of the buffers: read after write, and that every memory operation keeps the canonical
form and the bounds (spec/10_state.md R32, R33).
-/
namespace Sys2Proof.Machine

/-! ### One write -/

theorem Memory.get?_set_self (m : Memory) (k : Nat) (v : Byte) : (m.set k v).get? k = some v := by
  induction m with
  | nil => simp [Memory.set, Memory.get?]
  | cons c m ih =>
    obtain ⟨a, x⟩ := c
    simp only [Memory.set]
    split
    · simp [Memory.get?]
    · split
      · simp [Memory.get?]
      · simp [Memory.get?, *]

theorem Memory.get?_set_other (m : Memory) {k j : Nat} (v : Byte) (h : j ≠ k) :
    (m.set k v).get? j = m.get? j := by
  induction m with
  | nil => simp [Memory.set, Memory.get?, Ne.symm h]
  | cons c m ih =>
    obtain ⟨a, x⟩ := c
    simp only [Memory.set]
    split
    · simp [Memory.get?, Ne.symm h]
    · split
      · subst_vars; simp [Memory.get?, Ne.symm h]
      · simp [Memory.get?, ih]

theorem Memory.risingAbove_set (m : Memory) (lo k : Nat) (v : Byte) (h : m.risingAbove lo = true) (hk : lo < k) :
    (m.set k v).risingAbove lo = true := by
  induction m generalizing lo with
  | nil => simpa [Memory.set, Memory.risingAbove]
  | cons c m ih =>
    obtain ⟨a, x⟩ := c
    simp only [Memory.risingAbove, Bool.and_eq_true, decide_eq_true_eq] at h
    simp only [Memory.set]
    split
    · simp [Memory.risingAbove, *]
    · split
      · subst_vars; simp [Memory.risingAbove, *]
      · simp only [Memory.risingAbove, h.1, decide_true, Bool.true_and]
        exact ih a h.2 (by omega)

/-- A write keeps the canonical form. -/
theorem Memory.wf_set (m : Memory) (k : Nat) (v : Byte) (h : m.wf = true) : (m.set k v).wf = true := by
  cases m with
  | nil => rfl
  | cons c m =>
    obtain ⟨a, x⟩ := c
    simp only [Memory.wf] at h
    simp only [Memory.set]
    split
    · simp [Memory.wf, Memory.risingAbove, *]
    · split
      · subst_vars; simpa [Memory.wf]
      · exact Memory.risingAbove_set m a k v h (by omega)

/-- A write inside a buffer's size keeps the bounds. -/
theorem Memory.within_set (m : Memory) (size k : Nat) (v : Byte) (h : m.within size = true) (hk : k < size) :
    (m.set k v).within size = true := by
  induction m with
  | nil => simpa [Memory.set, Memory.within]
  | cons c m ih =>
    obtain ⟨a, x⟩ := c
    simp only [Memory.within, Bool.and_eq_true, decide_eq_true_eq] at h
    simp only [Memory.set]
    split
    · simp [Memory.within, *]
    · split
      · subst_vars; simp [Memory.within, *]
      · simp [Memory.within, h.1, ih h.2]

/-! ### A range of writes -/

theorem Memory.get?_setRange_below (vs : List Byte) (m : Memory) {k j : Nat} (h : j < k) :
    (m.setRange k vs).get? j = m.get? j := by
  induction vs generalizing m k with
  | nil => rfl
  | cons v vs ih => rw [Memory.setRange, ih _ (by omega), Memory.get?_set_other _ _ (by omega)]

/-- What a byte reads as after a range of writes. -/
theorem Memory.get?_setRange (vs : List Byte) (m : Memory) (k j : Nat) :
    (m.setRange k vs).get? j = if k ≤ j ∧ j < k + vs.length then vs[j - k]? else m.get? j := by
  induction vs generalizing m k with
  | nil => simp only [Memory.setRange, List.length_nil]; rw [if_neg (by omega)]
  | cons v vs ih =>
    rw [Memory.setRange, ih]
    rcases Nat.lt_trichotomy j k with h | h | h
    · rw [if_neg (by omega), if_neg (by omega), Memory.get?_set_other _ _ (by omega)]
    · subst h
      rw [if_neg (by omega), Memory.get?_set_self, if_pos (by simp)]
      simp
    · obtain ⟨d, rfl⟩ : ∃ d, j = k + 1 + d := ⟨j - (k + 1), by omega⟩
      have e : k + 1 + d - k = d + 1 := by omega
      have e' : k + 1 + d - (k + 1) = d := by omega
      simp only [e, e', List.length_cons, List.getElem?_cons_succ]
      rw [Memory.get?_set_other _ _ (by omega)]
      congr 1
      apply propext; omega

theorem Memory.wf_setRange (vs : List Byte) (m : Memory) (k : Nat) (h : m.wf = true) : (m.setRange k vs).wf = true := by
  induction vs generalizing m k with
  | nil => exact h
  | cons v vs ih => exact ih _ _ (Memory.wf_set m k v h)

theorem Memory.within_setRange (vs : List Byte) (m : Memory) (size k : Nat) (h : m.within size = true)
    (hk : k + vs.length ≤ size) : (m.setRange k vs).within size = true := by
  induction vs generalizing m k with
  | nil => exact h
  | cons v vs ih =>
    simp only [List.length_cons] at hk
    exact ih _ _ (Memory.within_set m size k v h (by omega)) (by omega)

/-! ### The buffers -/

@[simp] theorem Buffers.setMem_mem_self (bs : Buffers) (b : Buf) (m : Memory) : (bs.setMem b m).mem b = m := by
  cases b <;> rfl

theorem Buffers.setMem_mem_other (bs : Buffers) {b c : Buf} (m : Memory) (h : c ≠ b) : (bs.setMem b m).mem c = bs.mem c := by
  cases b <;> cases c <;> first | rfl | exact absurd rfl h

@[simp] theorem Buffers.setMem_initial (bs : Buffers) (b : Buf) (m : Memory) : (bs.setMem b m).initial = bs.initial := by
  cases b <;> rfl

@[simp] theorem Buffers.write_initial (bs : Buffers) (b : Buf) (k : Nat) (vs : List Byte) :
    (bs.write b k vs).initial = bs.initial := Buffers.setMem_initial _ _ _

/-- What a byte of the written buffer reads as. -/
theorem Buffers.byte_write_self (bs : Buffers) (b : Buf) (k j : Nat) (vs : List Byte) :
    (bs.write b k vs).byte b j = if k ≤ j ∧ j < k + vs.length then vs.getD (j - k) 0 else bs.byte b j := by
  simp only [Buffers.byte, Buffers.write, Buffers.setMem_mem_self, Buffers.setMem_initial, Memory.get?_setRange]
  split
  · have hlt : j - k < vs.length := by omega
    simp [List.getElem?_eq_getElem hlt, List.getD_eq_getElem?_getD]
  · rfl

/-- A write to one buffer leaves every byte of the others. -/
theorem Buffers.byte_write_other (bs : Buffers) {b c : Buf} (k j : Nat) (vs : List Byte) (h : c ≠ b) :
    (bs.write b k vs).byte c j = bs.byte c j := by
  simp [Buffers.byte, Buffers.write, Buffers.setMem_mem_other _ _ h]

/-- The buffers' canonical form and bounds, buffer by buffer. -/
theorem Buffers.wf_iff (bs : Buffers) :
    bs.wf = true ↔ ∀ b, (bs.mem b).wf = true ∧ (bs.mem b).within b.size = true := by
  constructor
  · intro h b
    simp only [Buffers.wf, Bool.and_eq_true] at h
    cases b <;> simp [Buffers.mem, Buf.size, h]
  · intro h
    simp only [Buffers.wf, Bool.and_eq_true]
    exact ⟨⟨⟨⟨h .msg, h .pts⟩, h .sym⟩, h .out⟩, h .erase⟩

/-- A write inside a buffer's size keeps the canonical form and the bounds. -/
theorem Buffers.wf_write (bs : Buffers) (b : Buf) (k : Nat) (vs : List Byte) (h : bs.wf = true)
    (hk : k + vs.length ≤ b.size) : (bs.write b k vs).wf = true := by
  rw [Buffers.wf_iff] at h ⊢
  intro c
  by_cases hc : c = b
  · subst hc
    simp only [Buffers.write, Buffers.setMem_mem_self]
    exact ⟨Memory.wf_setRange _ _ _ (h c).1, Memory.within_setRange _ _ _ _ (h c).2 hk⟩
  · simpa only [Buffers.write, Buffers.setMem_mem_other _ _ hc] using h c

/-- The buffers of the reset state are in the canonical form. -/
theorem Buffers.wf_reset : State.reset.bufs.wf = true := rfl

/-! ### The state's reads after writes -/

theorem State.readByte_writeBytes_self (s : State) (b : Buf) (k j : Nat) (vs : List Byte) :
    (s.writeBytes b k vs).readByte b j = if k ≤ j ∧ j < k + vs.length then vs.getD (j - k) 0 else s.readByte b j :=
  Buffers.byte_write_self _ _ _ _ _

theorem State.readByte_writeBytes_other (s : State) {b c : Buf} (k j : Nat) (vs : List Byte) (h : c ≠ b) :
    (s.writeBytes b k vs).readByte c j = s.readByte c j :=
  Buffers.byte_write_other _ _ _ _ h

/-- Bytes depend on the buffers alone. -/
theorem State.readByte_congr {s t : State} (h : t.bufs = s.bufs) : t.readByte = s.readByte := by
  funext b k; simp [State.readByte, h]

theorem State.eraseBit_congr {s t : State} (h : t.bufs = s.bufs) : t.eraseBit = s.eraseBit := by
  funext p; simp [State.eraseBit, h]

end Sys2Proof.Machine
end

