-- ==== Sys2Proof/Laws/State.lean ====
section
/-!
SUPPORT. One lemma for each field of State and each update of it, so that no proof unfolds a record update.
-/
namespace Sys2Proof.Machine

variable (s : State)

/-! ### `writeBytes` (spec/00_scope.md R9) -/

@[simp] theorem State.writeBytes_ctrl (b : Buf) (k : Nat) (vs : List Byte) : (s.writeBytes b k vs).ctrl = s.ctrl := rfl
@[simp] theorem State.writeBytes_status (b : Buf) (k : Nat) (vs : List Byte) : (s.writeBytes b k vs).status = s.status := rfl
@[simp] theorem State.writeBytes_result (b : Buf) (k : Nat) (vs : List Byte) : (s.writeBytes b k vs).result = s.result := rfl
@[simp] theorem State.writeBytes_bufs (b : Buf) (k : Nat) (vs : List Byte) : (s.writeBytes b k vs).bufs = s.bufs.write b k vs := rfl
@[simp] theorem State.writeBytes_phase (b : Buf) (k : Nat) (vs : List Byte) : (s.writeBytes b k vs).phase = s.phase := rfl
@[simp] theorem State.writeBytes_cur (b : Buf) (k : Nat) (vs : List Byte) : (s.writeBytes b k vs).cur = s.cur := rfl
@[simp] theorem State.writeBytes_pending (b : Buf) (k : Nat) (vs : List Byte) : (s.writeBytes b k vs).pending = s.pending := rfl
@[simp] theorem State.writeBytes_response (b : Buf) (k : Nat) (vs : List Byte) : (s.writeBytes b k vs).response = s.response := rfl
@[simp] theorem State.writeBytes_schedule (b : Buf) (k : Nat) (vs : List Byte) : (s.writeBytes b k vs).schedule = s.schedule := rfl
@[simp] theorem State.writeBytes_waited (b : Buf) (k : Nat) (vs : List Byte) : (s.writeBytes b k vs).waited = s.waited := rfl
@[simp] theorem State.writeBytes_draws (b : Buf) (k : Nat) (vs : List Byte) : (s.writeBytes b k vs).draws = s.draws := rfl

/-! ### `writeCtrl` (spec/10_state.md R25) -/

@[simp] theorem State.writeCtrl_ctrl (w : Word) : (s.writeCtrl w).ctrl = ⟨w.getLsbD 0, w.getLsbD 1⟩ := rfl
@[simp] theorem State.writeCtrl_status (w : Word) : (s.writeCtrl w).status = s.status := rfl
@[simp] theorem State.writeCtrl_result (w : Word) : (s.writeCtrl w).result = s.result := rfl
@[simp] theorem State.writeCtrl_bufs (w : Word) : (s.writeCtrl w).bufs = s.bufs := rfl
@[simp] theorem State.writeCtrl_phase (w : Word) : (s.writeCtrl w).phase = s.phase := rfl
@[simp] theorem State.writeCtrl_cur (w : Word) : (s.writeCtrl w).cur = s.cur := rfl
@[simp] theorem State.writeCtrl_pending (w : Word) : (s.writeCtrl w).pending = s.pending := rfl
@[simp] theorem State.writeCtrl_response (w : Word) : (s.writeCtrl w).response = s.response := rfl
@[simp] theorem State.writeCtrl_schedule (w : Word) : (s.writeCtrl w).schedule = s.schedule := rfl
@[simp] theorem State.writeCtrl_waited (w : Word) : (s.writeCtrl w).waited = s.waited := rfl
@[simp] theorem State.writeCtrl_draws (w : Word) : (s.writeCtrl w).draws = s.draws := rfl

/-! ### `writeStatus` (spec/10_state.md R27) -/

@[simp] theorem State.writeStatus_ctrl (w : Word) : (s.writeStatus w).ctrl = s.ctrl := rfl
@[simp] theorem State.writeStatus_status (w : Word) : (s.writeStatus w).status = ⟨s.status.done && !w.getLsbD 1, s.status.err, s.status.errs && !w.getLsbD 8⟩ := rfl
@[simp] theorem State.writeStatus_result (w : Word) : (s.writeStatus w).result = s.result := rfl
@[simp] theorem State.writeStatus_bufs (w : Word) : (s.writeStatus w).bufs = s.bufs := rfl
@[simp] theorem State.writeStatus_phase (w : Word) : (s.writeStatus w).phase = s.phase := rfl
@[simp] theorem State.writeStatus_cur (w : Word) : (s.writeStatus w).cur = s.cur := rfl
@[simp] theorem State.writeStatus_pending (w : Word) : (s.writeStatus w).pending = s.pending := rfl
@[simp] theorem State.writeStatus_response (w : Word) : (s.writeStatus w).response = s.response := rfl
@[simp] theorem State.writeStatus_schedule (w : Word) : (s.writeStatus w).schedule = s.schedule := rfl
@[simp] theorem State.writeStatus_waited (w : Word) : (s.writeStatus w).waited = s.waited := rfl
@[simp] theorem State.writeStatus_draws (w : Word) : (s.writeStatus w).draws = s.draws := rfl

/-! ### `respond` (spec/20_memory.md R53) -/

@[simp] theorem State.respond_ctrl (r : Response) : (s.respond r).ctrl = s.ctrl := rfl
@[simp] theorem State.respond_status (r : Response) : (s.respond r).status = s.status := rfl
@[simp] theorem State.respond_result (r : Response) : (s.respond r).result = s.result := rfl
@[simp] theorem State.respond_bufs (r : Response) : (s.respond r).bufs = s.bufs := rfl
@[simp] theorem State.respond_phase (r : Response) : (s.respond r).phase = s.phase := rfl
@[simp] theorem State.respond_cur (r : Response) : (s.respond r).cur = s.cur := rfl
@[simp] theorem State.respond_pending (r : Response) : (s.respond r).pending = s.pending := rfl
@[simp] theorem State.respond_response (r : Response) : (s.respond r).response = some r := rfl
@[simp] theorem State.respond_schedule (r : Response) : (s.respond r).schedule = s.schedule := rfl
@[simp] theorem State.respond_waited (r : Response) : (s.respond r).waited = s.waited := rfl
@[simp] theorem State.respond_draws (r : Response) : (s.respond r).draws = s.draws := rfl

/-! ### `beginStep` (log entry 4) -/

@[simp] theorem State.beginStep_ctrl : (s.beginStep).ctrl = s.ctrl := rfl
@[simp] theorem State.beginStep_status : (s.beginStep).status = s.status := rfl
@[simp] theorem State.beginStep_result : (s.beginStep).result = s.result := rfl
@[simp] theorem State.beginStep_bufs : (s.beginStep).bufs = s.bufs := rfl
@[simp] theorem State.beginStep_phase : (s.beginStep).phase = s.phase := rfl
@[simp] theorem State.beginStep_cur : (s.beginStep).cur = s.cur := rfl
@[simp] theorem State.beginStep_pending : (s.beginStep).pending = s.pending := rfl
@[simp] theorem State.beginStep_response : (s.beginStep).response = none := rfl
@[simp] theorem State.beginStep_schedule : (s.beginStep).schedule = s.schedule.tail := rfl
@[simp] theorem State.beginStep_waited : (s.beginStep).waited = s.waited := rfl
@[simp] theorem State.beginStep_draws : (s.beginStep).draws = s.draws := rfl

/-! ### `accept` (spec/30_encoding.md R92) -/

@[simp] theorem State.accept_ctrl (w : Word) : (s.accept w).ctrl = s.ctrl := rfl
@[simp] theorem State.accept_status (w : Word) : (s.accept w).status = ⟨false, 0, s.status.errs⟩ := rfl
@[simp] theorem State.accept_result (w : Word) : (s.accept w).result = s.result := rfl
@[simp] theorem State.accept_bufs (w : Word) : (s.accept w).bufs = s.bufs := rfl
@[simp] theorem State.accept_phase (w : Word) : (s.accept w).phase = .busy := rfl
@[simp] theorem State.accept_cur (w : Word) : (s.accept w).cur = w := rfl
@[simp] theorem State.accept_pending (w : Word) : (s.accept w).pending = s.pending := rfl
@[simp] theorem State.accept_response (w : Word) : (s.accept w).response = s.response := rfl
@[simp] theorem State.accept_schedule (w : Word) : (s.accept w).schedule = s.schedule := rfl
@[simp] theorem State.accept_waited (w : Word) : (s.accept w).waited = 0 := rfl
@[simp] theorem State.accept_draws (w : Word) : (s.accept w).draws = s.draws := rfl

/-! ### `clearRegisters` (spec/10_state.md R38) -/

@[simp] theorem State.clearRegisters_ctrl : (s.clearRegisters).ctrl = ⟨false, false⟩ := rfl
@[simp] theorem State.clearRegisters_status : (s.clearRegisters).status = ⟨false, 0, false⟩ := rfl
@[simp] theorem State.clearRegisters_result : (s.clearRegisters).result = 0 := rfl
@[simp] theorem State.clearRegisters_bufs : (s.clearRegisters).bufs = s.bufs := rfl
@[simp] theorem State.clearRegisters_phase : (s.clearRegisters).phase = .idle := rfl
@[simp] theorem State.clearRegisters_cur : (s.clearRegisters).cur = s.cur := rfl
@[simp] theorem State.clearRegisters_pending : (s.clearRegisters).pending = s.pending := rfl
@[simp] theorem State.clearRegisters_response : (s.clearRegisters).response = s.response := rfl
@[simp] theorem State.clearRegisters_schedule : (s.clearRegisters).schedule = s.schedule := rfl
@[simp] theorem State.clearRegisters_waited : (s.clearRegisters).waited = s.waited := rfl
@[simp] theorem State.clearRegisters_draws : (s.clearRegisters).draws = s.draws := rfl

/-! ### `hardReset` (spec/70_reset_and_hazards.md R251) -/

@[simp] theorem State.hardReset_ctrl : (s.hardReset).ctrl = ⟨false, false⟩ := rfl
@[simp] theorem State.hardReset_status : (s.hardReset).status = ⟨false, 0, false⟩ := rfl
@[simp] theorem State.hardReset_result : (s.hardReset).result = 0 := rfl
@[simp] theorem State.hardReset_bufs : (s.hardReset).bufs = ⟨[], [], [], [], [], s.draws⟩ := rfl
@[simp] theorem State.hardReset_phase : (s.hardReset).phase = .idle := rfl
@[simp] theorem State.hardReset_cur : (s.hardReset).cur = s.cur := rfl
@[simp] theorem State.hardReset_pending : (s.hardReset).pending = s.pending := rfl
@[simp] theorem State.hardReset_response : (s.hardReset).response = s.response := rfl
@[simp] theorem State.hardReset_schedule : (s.hardReset).schedule = s.schedule := rfl
@[simp] theorem State.hardReset_waited : (s.hardReset).waited = s.waited := rfl
@[simp] theorem State.hardReset_draws : (s.hardReset).draws = s.draws + 1 := rfl

/-! ### `placeCommand` (log entry 7) -/

@[simp] theorem State.placeCommand_ctrl (w : Word) : (s.placeCommand w).ctrl = s.ctrl := rfl
@[simp] theorem State.placeCommand_status (w : Word) : (s.placeCommand w).status = ⟨false, 0, s.status.errs⟩ := rfl
@[simp] theorem State.placeCommand_result (w : Word) : (s.placeCommand w).result = s.result := rfl
@[simp] theorem State.placeCommand_bufs (w : Word) : (s.placeCommand w).bufs = s.bufs := rfl
@[simp] theorem State.placeCommand_phase (w : Word) : (s.placeCommand w).phase = .busy := rfl
@[simp] theorem State.placeCommand_cur (w : Word) : (s.placeCommand w).cur = w := rfl
@[simp] theorem State.placeCommand_pending (w : Word) : (s.placeCommand w).pending = s.pending := rfl
@[simp] theorem State.placeCommand_response (w : Word) : (s.placeCommand w).response = s.response := rfl
@[simp] theorem State.placeCommand_schedule (w : Word) : (s.placeCommand w).schedule = .engine :: s.schedule := rfl
@[simp] theorem State.placeCommand_waited (w : Word) : (s.placeCommand w).waited = 0 := rfl
@[simp] theorem State.placeCommand_draws (w : Word) : (s.placeCommand w).draws = s.draws := rfl

/-! ### `applyWrites` (spec/30_encoding.md R94) -/

@[simp] theorem State.applyWrites_nothing : s.applyWrites .nothing = s := rfl
@[simp] theorem State.applyWrites_result (v : Byte) : s.applyWrites (.result v) = { s with result := v.setWidth 32 } := rfl
@[simp] theorem State.applyWrites_buffer (b : Buf) (vs : List Byte) :
    s.applyWrites (.buffer b vs) = s.writeBytes b 0 vs := rfl
@[simp] theorem State.applyWrites_ctrl (x : Writes) : (s.applyWrites x).ctrl = s.ctrl := by cases x <;> rfl
@[simp] theorem State.applyWrites_status (x : Writes) : (s.applyWrites x).status = s.status := by cases x <;> rfl
@[simp] theorem State.applyWrites_phase (x : Writes) : (s.applyWrites x).phase = s.phase := by cases x <;> rfl
@[simp] theorem State.applyWrites_cur (x : Writes) : (s.applyWrites x).cur = s.cur := by cases x <;> rfl
@[simp] theorem State.applyWrites_pending (x : Writes) : (s.applyWrites x).pending = s.pending := by cases x <;> rfl
@[simp] theorem State.applyWrites_response (x : Writes) : (s.applyWrites x).response = s.response := by cases x <;> rfl
@[simp] theorem State.applyWrites_schedule (x : Writes) : (s.applyWrites x).schedule = s.schedule := by cases x <;> rfl
@[simp] theorem State.applyWrites_waited (x : Writes) : (s.applyWrites x).waited = s.waited := by cases x <;> rfl
@[simp] theorem State.applyWrites_draws (x : Writes) : (s.applyWrites x).draws = s.draws := by cases x <;> rfl

/-! ### `complete` (spec/30_encoding.md R94) -/

@[simp] theorem State.complete_status (e : Effect) : (s.complete e).status = s.status.completed e.code := rfl
@[simp] theorem State.complete_phase (e : Effect) : (s.complete e).phase = .idle := rfl
@[simp] theorem State.complete_result (e : Effect) : (s.complete e).result = (s.applyWrites e.writes).result := rfl
@[simp] theorem State.complete_bufs (e : Effect) : (s.complete e).bufs = (s.applyWrites e.writes).bufs := rfl
@[simp] theorem State.complete_ctrl (e : Effect) : (s.complete e).ctrl = s.ctrl := by simp [State.complete]
@[simp] theorem State.complete_cur (e : Effect) : (s.complete e).cur = s.cur := by simp [State.complete]
@[simp] theorem State.complete_pending (e : Effect) : (s.complete e).pending = s.pending := by simp [State.complete]
@[simp] theorem State.complete_response (e : Effect) : (s.complete e).response = s.response := by simp [State.complete]
@[simp] theorem State.complete_schedule (e : Effect) : (s.complete e).schedule = s.schedule := by simp [State.complete]
@[simp] theorem State.complete_waited (e : Effect) : (s.complete e).waited = s.waited := by simp [State.complete]
@[simp] theorem State.complete_draws (e : Effect) : (s.complete e).draws = s.draws := by simp [State.complete]

@[simp] theorem Status.completed_done (st : Status) (c : Code) : (st.completed c).done = true := rfl
@[simp] theorem Status.completed_err (st : Status) (c : Code) : (st.completed c).err = c.bits := rfl
@[simp] theorem Status.completed_errs (st : Status) (c : Code) : (st.completed c).errs = (st.errs || c != .ok) := rfl

/-! ### `age` (spec/70_reset_and_hazards.md R257) -/

@[simp] theorem State.age_ctrl : s.age.ctrl = s.ctrl := by unfold State.age; split <;> rfl
@[simp] theorem State.age_status : s.age.status = s.status := by unfold State.age; split <;> rfl
@[simp] theorem State.age_result : s.age.result = s.result := by unfold State.age; split <;> rfl
@[simp] theorem State.age_bufs : s.age.bufs = s.bufs := by unfold State.age; split <;> rfl
@[simp] theorem State.age_phase : s.age.phase = s.phase := by unfold State.age; split <;> rfl
@[simp] theorem State.age_cur : s.age.cur = s.cur := by unfold State.age; split <;> rfl
@[simp] theorem State.age_pending : s.age.pending = s.pending := by unfold State.age; split <;> rfl
@[simp] theorem State.age_response : s.age.response = s.response := by unfold State.age; split <;> rfl
@[simp] theorem State.age_schedule : s.age.schedule = s.schedule := by unfold State.age; split <;> rfl
@[simp] theorem State.age_draws : s.age.draws = s.draws := by unfold State.age; split <;> rfl
theorem State.age_waited : s.age.waited = if s.phase = .busy then s.waited + s.turnCycles else s.waited := by
  unfold State.age; split <;> simp_all

/-! ### `scramble` (spec/70_reset_and_hazards.md R252) -/

@[simp] theorem State.scramble_ctrl (d : Dest) : (s.scramble d).ctrl = s.ctrl := by cases d <;> rfl
@[simp] theorem State.scramble_status (d : Dest) : (s.scramble d).status = s.status := by cases d <;> rfl
@[simp] theorem State.scramble_phase (d : Dest) : (s.scramble d).phase = s.phase := by cases d <;> rfl
@[simp] theorem State.scramble_cur (d : Dest) : (s.scramble d).cur = s.cur := by cases d <;> rfl
@[simp] theorem State.scramble_pending (d : Dest) : (s.scramble d).pending = s.pending := by cases d <;> rfl
@[simp] theorem State.scramble_response (d : Dest) : (s.scramble d).response = s.response := by cases d <;> rfl
@[simp] theorem State.scramble_schedule (d : Dest) : (s.scramble d).schedule = s.schedule := by cases d <;> rfl
@[simp] theorem State.scramble_waited (d : Dest) : (s.scramble d).waited = s.waited := by cases d <;> rfl

/-- Whatever the destination set is, RESULT stays 0 above bit 7 (spec/10_state.md R30). -/
theorem State.scramble_result_lt (d : Dest) (h : s.result.toNat < 256) : (s.scramble d).result.toNat < 256 := by
  cases d with
  | nothing => exact h
  | result =>
    change ((Config.freeByte s.draws 0x80C).setWidth 32).toNat < 256
    have := (Config.freeByte s.draws 0x80C).isLt
    rw [BitVec.toNat_setWidth]
    omega
  | bytes b n => exact h

/-! ### `softReset` (spec/70_reset_and_hazards.md R252) -/

@[simp] theorem State.softReset_ctrl : s.softReset.ctrl = ⟨false, false⟩ := rfl
@[simp] theorem State.softReset_status : s.softReset.status = ⟨false, 0, false⟩ := rfl
@[simp] theorem State.softReset_result : s.softReset.result = 0 := rfl
@[simp] theorem State.softReset_phase : s.softReset.phase = .idle := rfl
@[simp] theorem State.softReset_cur : s.softReset.cur = s.cur := by unfold State.softReset; split <;> simp
@[simp] theorem State.softReset_pending : s.softReset.pending = s.pending := by unfold State.softReset; split <;> simp
@[simp] theorem State.softReset_response : s.softReset.response = s.response := by unfold State.softReset; split <;> simp
@[simp] theorem State.softReset_schedule : s.softReset.schedule = s.schedule := by unfold State.softReset; split <;> simp
@[simp] theorem State.softReset_waited : s.softReset.waited = s.waited := by unfold State.softReset; split <;> simp

end Sys2Proof.Machine
end

