-- ==== Sys2Proof/Laws/Command.lean ====
section
/-!
SUPPORT. What a command's meaning can do, said once: `exec` is the completion of `effectOf`, an effect depends on the
buffers alone, and the shape of its writes.
-/
namespace Sys2Proof.Machine

/-- Every meaning is the completion (R94) of the command's effect (R93). -/
theorem exec_eq_complete (i : Instr) (s : State) : exec i s = .next (s.complete (effectOf i s)) := by
  cases i <;> rfl

theorem completeIllegal_eq (s : State) : completeIllegal s = .next (s.complete illegalEffect) := rfl

/-! ### Operands -/

@[simp] theorem State.elements_length (s : State) (b : Buf) (n : Nat) : (s.elements b n).length = n := by
  simp [State.elements]

@[simp] theorem State.elementsAt_length (s : State) (b : Buf) (us : List Nat) : (s.elementsAt b us).length = us.length := by
  simp [State.elementsAt]

theorem State.elements_getD (s : State) (b : Buf) {n k : Nat} (h : k < n) (d : Byte) :
    (s.elements b n).getD k d = s.readByte b k := by
  simp [State.elements, List.getD_eq_getElem?_getD, h]

theorem State.chosen_length_le (s : State) (L N : Nat) : (s.chosen L N).length ≤ L := by
  simp [State.chosen]

theorem State.chosen_length (s : State) {L N : Nat} (h : L ≤ (s.survivors N).length) : (s.chosen L N).length = L := by
  simp [State.chosen, h]

theorem State.elements_congr {s t : State} (h : t.bufs = s.bufs) : t.elements = s.elements := by
  funext b n; simp [State.elements, State.readByte_congr h]

theorem State.elementsAt_congr {s t : State} (h : t.bufs = s.bufs) : t.elementsAt = s.elementsAt := by
  funext b us; simp [State.elementsAt, State.readByte_congr h]

theorem State.survivors_congr {s t : State} (h : t.bufs = s.bufs) : t.survivors = s.survivors := by
  funext N; simp [State.survivors, State.eraseBit_congr h]

theorem State.eraseOutOfRange_congr {s t : State} (h : t.bufs = s.bufs) : t.eraseOutOfRange = s.eraseOutOfRange := by
  funext N; simp [State.eraseOutOfRange, State.eraseBit_congr h]

/-! ### Effects -/

/-- A command's effect depends on the buffers alone: registers, port and the model's own fields do not matter. -/
theorem effectOf_congr {s t : State} (i : Instr) (h : t.bufs = s.bufs) : effectOf i t = effectOf i s := by
  cases i <;>
    simp [effectOf, evalEffect, encodeEffect, solveEffect, decodeEffect, State.chosen, State.elements_congr h,
      State.elementsAt_congr h, State.survivors_congr h, State.eraseOutOfRange_congr h]

theorem execute_congr {s t : State} (w : Word) (h : t.bufs = s.bufs) : execute w t = execute w s := by
  unfold execute
  split
  · exact effectOf_congr _ h
  · rfl

theorem dest_congr {s t : State} (w : Word) (h : t.bufs = s.bufs) : dest w t = dest w s := by
  simp [dest, execute_congr w h]

@[simp] theorem divideDiagonal_length (n : Nat) (pol : Byte) (w : WorkMatrix) : (divideDiagonal n pol w).length = n := by
  simp [divideDiagonal]

/-- A solve gives `n` coefficients (R160). -/
@[simp] theorem gjSolve_length (n : Nat) (ps vs : List Byte) (pol : Byte) : (gjSolve n ps vs pol).1.length = n := by
  simp [gjSolve]

/-- What a solve's effect is: all `n` bytes of OUT, and code 0 or 6 (R165). -/
theorem solveOutcome_cases (n : Nat) (ps vs : List Byte) (pol : Byte) :
    solveOutcome n ps vs pol = ⟨.ok, .buffer .out (gjSolve n ps vs pol).1⟩ ∧ (gjSolve n ps vs pol).2 = false ∨
    solveOutcome n ps vs pol = ⟨.singular, .buffer .out (gjSolve n ps vs pol).1⟩ ∧ (gjSolve n ps vs pol).2 = true := by
  cases h : (gjSolve n ps vs pol).2 <;> simp [solveOutcome, h]

/-- What an EVAL's effect can be (R142). -/
theorem evalEffect_cases (x : Byte) (L : Nat) (pol : Byte) (s : State) :
    L = 0 ∧ evalEffect x L pol s = ⟨.length, .nothing⟩ ∨
    L ≠ 0 ∧ evalEffect x L pol s = ⟨.ok, .result (horner (s.elements .msg L) x pol)⟩ := by
  by_cases h : L = 0 <;> simp [evalEffect, h]

/-- What an ENCODE's effect can be (R143). -/
theorem encodeEffect_cases (L N : Nat) (pol : Byte) (s : State) :
    (L = 0 ∨ 256 < N) ∧ encodeEffect L N pol s = ⟨.length, .nothing⟩ ∨
    (L ≠ 0 ∧ N ≤ 256) ∧ encodeEffect L N pol s =
      ⟨.ok, .buffer .sym ((s.elements .pts N).map fun x => horner (s.elements .msg L) x pol)⟩ := by
  by_cases h : L = 0 ∨ 256 < N
  · exact .inl ⟨h, by simp [encodeEffect, Config.nMax, h]⟩
  · refine .inr ⟨by omega, ?_⟩
    unfold encodeEffect Config.nMax
    exact if_neg h

/-- What a DECODE's effect can be, in the order of the checks (R182, R93). -/
theorem decodeEffect_cases (L N : Nat) (pol : Byte) (s : State) :
    256 < N ∧ decodeEffect L N pol s = ⟨.length, .nothing⟩ ∨
    N ≤ 256 ∧ s.eraseOutOfRange N = true ∧ decodeEffect L N pol s = ⟨.eraseRange, .nothing⟩ ∨
    N ≤ 256 ∧ s.eraseOutOfRange N = false ∧ (s.survivors N).length < L ∧
      decodeEffect L N pol s = ⟨.insufficient, .nothing⟩ ∨
    N ≤ 256 ∧ s.eraseOutOfRange N = false ∧ L ≤ (s.survivors N).length ∧
      decodeEffect L N pol s =
        solveOutcome L (s.elementsAt .pts (s.chosen L N)) (s.elementsAt .sym (s.chosen L N)) pol := by
  unfold decodeEffect Config.nMax
  by_cases h : 256 < N
  · simp [h]
  · by_cases he : s.eraseOutOfRange N = true
    · simp [h, he]; omega
    · by_cases hs : (s.survivors N).length < L
      · simp [h, he, hs]; omega
      · simp [h, he, hs]; omega

/-- A well-formed command that writes a buffer writes no byte beyond its end (R93: "every buffer index a command uses
lies in 0..255"). -/
theorem effectOf_buffer_length {i : Instr} {s : State} {b : Buf} {vs : List Byte} (hi : i.wf = true)
    (h : (effectOf i s).writes = .buffer b vs) : vs.length ≤ b.size := by
  cases i with
  | nop => simp [effectOf, nopEffect] at h
  | mul a c pol => simp [effectOf, mulEffect] at h
  | inv a pol => simp [effectOf, invEffect] at h
  | eval x L pol =>
    rcases evalEffect_cases x L pol s with ⟨-, e⟩ | ⟨-, e⟩ <;> simp [effectOf, e] at h
  | encode L N pol =>
    rcases encodeEffect_cases L N pol s with ⟨-, e⟩ | ⟨⟨-, hN⟩, e⟩
    · simp [effectOf, e] at h
    · simp only [effectOf, e, Writes.buffer.injEq] at h
      obtain ⟨rfl, rfl⟩ := h
      simpa [Buf.size, Config.bufSize] using hN
  | solve n pol =>
    have hn : n < 256 := by simpa [Instr.wf, lengthFits] using hi
    rcases solveOutcome_cases n (s.elements .pts n) (s.elements .sym n) pol with ⟨e, -⟩ | ⟨e, -⟩ <;>
    · simp only [effectOf, solveEffect, e, Writes.buffer.injEq] at h
      obtain ⟨rfl, rfl⟩ := h
      simp [Buf.size, Config.bufSize]; omega
  | decode L N pol =>
    have hL : L < 256 := by
      simp only [Instr.wf, lengthFits, Bool.and_eq_true, decide_eq_true_eq] at hi; exact hi.1
    rcases decodeEffect_cases L N pol s with ⟨-, e⟩ | ⟨-, -, e⟩ | ⟨-, -, -, e⟩ | ⟨-, -, -, e⟩
    · simp [effectOf, e] at h
    · simp [effectOf, e] at h
    · simp [effectOf, e] at h
    · rcases solveOutcome_cases L (s.elementsAt .pts (s.chosen L N)) (s.elementsAt .sym (s.chosen L N)) pol with
        ⟨e', -⟩ | ⟨e', -⟩ <;>
      · simp only [effectOf, e, e', Writes.buffer.injEq] at h
        obtain ⟨rfl, rfl⟩ := h
        simp [Buf.size, Config.bufSize]; omega

/-! ### Completion -/

theorem State.readByte_complete_nothing (s : State) (c : Code) (b : Buf) (k : Nat) :
    (s.complete ⟨c, .nothing⟩).readByte b k = s.readByte b k := rfl

theorem State.readByte_complete_result (s : State) (c : Code) (v : Byte) (b : Buf) (k : Nat) :
    (s.complete ⟨c, .result v⟩).readByte b k = s.readByte b k := rfl

theorem State.readByte_complete_self (s : State) (c : Code) (b : Buf) (vs : List Byte) (k : Nat) :
    (s.complete ⟨c, .buffer b vs⟩).readByte b k = if k < vs.length then vs.getD k 0 else s.readByte b k := by
  have h := State.readByte_writeBytes_self s b 0 k vs
  simp only [Nat.zero_le, true_and, Nat.zero_add, Nat.sub_zero] at h
  exact h

theorem State.readByte_complete_other (s : State) (c : Code) {b b' : Buf} (vs : List Byte) (k : Nat) (h : b' ≠ b) :
    (s.complete ⟨c, .buffer b vs⟩).readByte b' k = s.readByte b' k :=
  State.readByte_writeBytes_other s 0 k vs h

theorem Code.bits_le (c : Code) : c.bits.toNat ≤ 6 := by cases c <;> decide

end Sys2Proof.Machine
end

