-- ==== Sys2Proof/Laws/Bus.lean ====
section
/-!
SUPPORT. The address map, the hold rule and what a performed transaction can do, said once (spec/20_memory.md).
-/
namespace Sys2Proof.Machine

/-- The alignment test in numbers (R56). -/
theorem target_eq (addr : Offset) :
    target addr = if addr.toNat % 4 = 0 then mapAligned addr.toNat else .error .misaligned := by
  unfold target
  have h : addr.extractLsb' 0 2 = 0 ↔ addr.toNat % 4 = 0 := by
    rw [← BitVec.toNat_inj]; simp
  by_cases h4 : addr.toNat % 4 = 0
  · rw [if_pos (h.2 h4), if_pos h4]
  · rw [if_neg (fun e => h4 (h.1 e)), if_neg h4]

/-- The buffer word at an aligned offset below 0x420, with its four bytes inside the buffer (R54). -/
theorem mapAligned_buffer {a : Nat} {b : Buf} {k : Nat} (h4 : a % 4 = 0)
    (h : mapAligned a = .location (.buffer b k)) : k + 4 ≤ b.size ∧ a = b.base + k := by
  unfold mapAligned at h
  repeat' split at h
  all_goals first
    | (simp only [Target.location.injEq, Location.buffer.injEq] at h
       obtain ⟨rfl, rfl⟩ := h
       constructor <;> simp only [Buf.size, Buf.base, Config.bufSize, Config.eraseBytes] <;> omega)
    | simp at h

/-- Nothing is held while IDLE (R60). -/
theorem State.held_idle {s : State} (h : s.phase = .idle) (t : Transaction) : s.held t = false := by
  simp [State.held, State.isBusy, h]

/-- An `Err` is never held (R59). -/
theorem State.held_error {s : State} {t : Transaction} {e : BusError} (h : target t.addr = .error e) :
    s.held t = false := by
  simp [State.held, h]

theorem State.held_location {s : State} {t : Transaction} {l : Location} (h : target t.addr = .location l) :
    s.held t = (s.isBusy && l.heldWhileBusy t.we) := by
  simp [State.held, h]

/-! ### `perform` -/

theorem State.perform_error {s : State} {t : Transaction} {e : BusError} (h : target t.addr = .error e) :
    s.perform t = s.busError t.we := by
  simp [State.perform, h]

theorem State.perform_read {s : State} {t : Transaction} {l : Location} (h : target t.addr = .location l)
    (hw : t.we = false) : s.perform t = s.respond (.okRead (s.readLocation l)) := by
  simp [State.perform, h, hw]

theorem State.perform_write {s : State} {t : Transaction} {l : Location} (h : target t.addr = .location l)
    (hw : t.we = true) : s.perform t = (s.writeLocation l t.wdata).respond .okWrite := by
  simp [State.perform, h, hw]

/-- What a performed transaction is: an error, a read or a write. -/
theorem State.perform_cases (s : State) (t : Transaction) :
    (∃ e, target t.addr = .error e ∧ s.perform t = s.busError t.we) ∨
    (∃ l, target t.addr = .location l ∧ t.we = false ∧ s.perform t = s.respond (.okRead (s.readLocation l))) ∨
    (∃ l, target t.addr = .location l ∧ t.we = true ∧ s.perform t = (s.writeLocation l t.wdata).respond .okWrite) := by
  cases h : target t.addr with
  | error e => exact .inl ⟨e, rfl, State.perform_error h⟩
  | location l =>
    cases hw : t.we with
    | false => exact .inr (.inl ⟨l, rfl, rfl, State.perform_read h hw⟩)
    | true => exact .inr (.inr ⟨l, rfl, rfl, State.perform_write h hw⟩)

@[simp] theorem State.busError_toArch (s : State) (we : Bool) : (s.busError we).toArch = s.toArch := by
  cases we <;> rfl

@[simp] theorem State.busError_pending (s : State) (we : Bool) : (s.busError we).pending = s.pending := by
  cases we <;> rfl

@[simp] theorem State.busError_response_isSome (s : State) (we : Bool) : (s.busError we).response.isSome = true := by
  cases we <;> rfl

@[simp] theorem State.respond_toArch (s : State) (r : Response) : (s.respond r).toArch = s.toArch := rfl

@[simp] theorem State.writeLocation_pending (s : State) (l : Location) (v : Word) :
    (s.writeLocation l v).pending = s.pending := by
  cases l <;> simp only [State.writeLocation] <;> first | rfl | (split <;> simp)

@[simp] theorem State.writeLocation_schedule (s : State) (l : Location) (v : Word) :
    (s.writeLocation l v).schedule = s.schedule := by
  cases l <;> simp only [State.writeLocation] <;> first | rfl | (split <;> simp)

/-- Every performed transaction uses up nothing of the queue by itself and gives a response (R53). -/
@[simp] theorem State.perform_pending (s : State) (t : Transaction) : (s.perform t).pending = s.pending := by
  rcases s.perform_cases t with ⟨e, -, h⟩ | ⟨l, -, -, h⟩ | ⟨l, -, -, h⟩ <;> simp [h]

theorem State.perform_response_isSome (s : State) (t : Transaction) : (s.perform t).response.isSome = true := by
  rcases s.perform_cases t with ⟨e, -, h⟩ | ⟨l, -, -, h⟩ | ⟨l, -, -, h⟩ <;> simp [h]

/-! ### The soft reset's destination range (R252) -/

@[simp] theorem State.scramble_nothing (s : State) : s.scramble .nothing = s := rfl

/-- Only a destination set in a buffer changes a buffer. -/
@[simp] theorem State.scramble_result_bufs (s : State) : (s.scramble .result).bufs = s.bufs := rfl

theorem State.readByte_scramble_self (s : State) (b : Buf) (n k : Nat) :
    (s.scramble (.bytes b n)).readByte b k =
      if k < n then Config.freeByte s.draws (b.base + k) else s.readByte b k := by
  have h := State.readByte_writeBytes_self s b 0 k (freeBytes s.draws b n)
  change (s.writeBytes b 0 (freeBytes s.draws b n)).readByte b k = _
  rw [h]
  simp only [freeBytes, List.length_map, List.length_range, Nat.zero_le, true_and, Nat.zero_add, Nat.sub_zero]
  by_cases hk : k < n
  · simp [hk, List.getD_eq_getElem?_getD]
  · simp [hk]

theorem State.readByte_scramble_other (s : State) {b c : Buf} (n k : Nat) (h : c ≠ b) :
    (s.scramble (.bytes b n)).readByte c k = s.readByte c k :=
  State.readByte_writeBytes_other s 0 k _ h

/-- The buffers after a soft reset. -/
theorem State.softReset_bufs (s : State) :
    s.softReset.bufs = if s.phase = .busy then (s.scramble (dest s.cur s)).bufs else s.bufs := by
  unfold State.softReset; split <;> simp

end Sys2Proof.Machine
end

