-- ==== Sys2Proof/Laws/Field.lean ====
section
/-!
SUPPORT. The first laws of MULU, EVU and SLVU: unfolding equations, and the entries of the solver's matrices
(spec/40_field_arithmetic.md, spec/41_polynomial_evaluation.md, spec/42_linear_solver.md).
-/
namespace Sys2Proof.Machine

/-! ### The multiplier's loop (R112) -/

@[simp] theorem gfMulLoop_zero_b (pol : Byte) (fuel : Nat) (p a : Byte) : gfMulLoop pol fuel p a 0#8 = p := by
  cases fuel <;> simp [gfMulLoop]

/-- One iteration, whether or not `b` is 0: an iteration on `b = 0` changes nothing that matters. -/
theorem gfMulLoop_succ (pol : Byte) (fuel : Nat) (p a b : Byte) :
    gfMulLoop pol (fuel + 1) p a b =
      gfMulLoop pol fuel (if b.getLsbD 0 then gfAdd p a else p) (gfShift a pol) (b >>> 1) := by
  by_cases h : b = 0
  · subst h
    rw [show (0 : Byte) >>> 1 = 0#8 from by decide, gfMulLoop_zero_b]
    exact gfMulLoop_zero_b pol (fuel + 1) p a
  · rw [gfMulLoop, if_neg h]

/-- The running product enters the loop's value by addition (R111). -/
theorem gfMulLoop_add (pol : Byte) (fuel : Nat) (p a b : Byte) :
    gfMulLoop pol fuel p a b = gfAdd p (gfMulLoop pol fuel 0 a b) := by
  induction fuel generalizing p a b with
  | zero => simp [gfMulLoop, gfAdd]
  | succ n ih =>
    rw [gfMulLoop_succ, gfMulLoop_succ, ih, ih (if b.getLsbD 0 then gfAdd 0 a else 0)]
    split <;> simp [gfAdd, BitVec.xor_assoc]

/-! ### Horner (R140) -/

@[simp] theorem horner_single (c x pol : Byte) : horner [c] x pol = c := rfl

theorem hornerLoop_append (x pol acc : Byte) (cs : List Byte) (c : Byte) :
    hornerLoop x pol acc (cs ++ [c]) = gfAdd (gfMul (hornerLoop x pol acc cs) x pol) c := by
  induction cs generalizing acc with
  | nil => rfl
  | cons d ds ih => exact ih _

/-- Horner's recurrence from the constant term: `m(x) = MSG[0] + x·m'(x)`. -/
theorem horner_cons (c d : Byte) (ms : List Byte) (x pol : Byte) :
    horner (c :: d :: ms) x pol = gfAdd (gfMul (horner (d :: ms) x pol) x pol) c := by
  unfold horner
  have hne : (d :: ms).reverse ≠ [] := by simp
  obtain ⟨top, rest, h⟩ : ∃ top rest, (d :: ms).reverse = top :: rest := by
    cases e : (d :: ms).reverse with
    | nil => exact absurd e hne
    | cons top rest => exact ⟨top, rest, rfl⟩
  rw [List.reverse_cons, h]
  exact hornerLoop_append x pol top rest c

/-! ### The solver's matrices (R161, R162) -/

@[simp] theorem powersFrom_length (p pol : Byte) (n : Nat) (x : Byte) : (powersFrom p pol n x).length = n := by
  induction n generalizing x with
  | zero => rfl
  | succ n ih => simp [powersFrom, ih]

@[simp] theorem vandermondeRow_length (n : Nat) (pol p v : Byte) : (vandermondeRow n pol p v).length = n + 1 := by
  simp [vandermondeRow]

@[simp] theorem vandermonde_length (n : Nat) (ps vs : List Byte) (pol : Byte) : (vandermonde n ps vs pol).length = n := by
  simp [vandermonde]

theorem vandermonde_row {n j : Nat} (ps vs : List Byte) (pol : Byte) (h : j < n) :
    (vandermonde n ps vs pol).row j = vandermondeRow n pol (ps.getD j 0) (vs.getD j 0) := by
  simp [vandermonde, WorkMatrix.row, List.getD_eq_getElem?_getD, h]

@[simp] theorem pivotStep_length (n : Nat) (pol : Byte) (k : Work) (i : Nat) : (pivotStep n pol k i).w.length = n := by
  simp [pivotStep]

theorem pivotStep_row {n j : Nat} (pol : Byte) (k : Work) (i : Nat) (h : j < n) :
    (pivotStep n pol k i).w.row j = pivotRow pol i k.w (gfInv (k.w.entry i i) pol) j := by
  simp [pivotStep, WorkMatrix.row, List.getD_eq_getElem?_getD, h]

/-- A pivot step leaves its pivot row (R162). -/
theorem pivotStep_row_self {n i : Nat} (pol : Byte) (k : Work) (h : i < n) :
    (pivotStep n pol k i).w.row i = k.w.row i := by
  simp [pivotStep_row pol k i h, pivotRow]

/-- An entry of an eliminated row, when both rows reach the column (R162). -/
theorem eliminateRow_getD {m : Nat} (r pol : Byte) (row pivot : List Byte) (h : m < row.length) (h' : m < pivot.length) :
    (eliminateRow r pol row pivot).getD m 0 = gfAdd (row.getD m 0) (gfMul r (pivot.getD m 0) pol) := by
  simp [eliminateRow, List.getD_eq_getElem?_getD, h, h']

end Sys2Proof.Machine
end

