-- ==== Sys2Proof/Laws/PerInstr.lean ====
section
/-!
SUPPORT. Statements about every command as syntax, one lemma for each constructor of Instr. The family `EncodeFixed`: the
encoding of a command, masked by its row's mask, is its row's match value (spec/30_encoding.md R86, R90).
-/
namespace Sys2Proof.Laws

/-- Bits of a word of format S that lie in its low 24 bits are no bits of OP or RSV4, and those above are (R82). -/
theorem formatS_and (op : BitVec 4) (b pol a : Byte) :
    formatS op b pol a &&& 0xFF000000#32 = (op ++ (0 : BitVec 28) : Word) := by
  apply BitVec.eq_of_getLsbD_eq
  intro i hi
  simp only [formatS, BitVec.getLsbD_and, BitVec.getLsbD_append]
  interval_cases i <;> simp [BitVec.getLsbD] <;> intro _ <;> decide

/-- The same for format V, whose reserved field has 3 bits (R83). -/
theorem formatV_and (op : BitVec 4) (n : BitVec 9) (pol l : Byte) :
    formatV op n pol l &&& 0xFE000000#32 = (op ++ (0 : BitVec 28) : Word) := by
  apply BitVec.eq_of_getLsbD_eq
  intro i hi
  simp only [formatV, BitVec.getLsbD_and, BitVec.getLsbD_append]
  interval_cases i <;> simp [BitVec.getLsbD] <;> intro _ <;> decide

/-- INV: format S with B = 0 (R82, R86). -/
theorem formatS_zeroB_and (op : BitVec 4) (pol a : Byte) :
    formatS op 0 pol a &&& 0xFFFF0000#32 = (op ++ (0 : BitVec 28) : Word) := by
  apply BitVec.eq_of_getLsbD_eq
  intro i hi
  simp only [formatS, BitVec.getLsbD_and, BitVec.getLsbD_append]
  interval_cases i <;> simp [BitVec.getLsbD] <;> intro _ <;> decide

/-- SOLVE: format V with N = 0 (R83, R86). -/
theorem formatV_zeroN_and (op : BitVec 4) (pol l : Byte) :
    formatV op 0 pol l &&& 0xFFFF0000#32 = (op ++ (0 : BitVec 28) : Word) := by
  apply BitVec.eq_of_getLsbD_eq
  intro i hi
  simp only [formatV, BitVec.getLsbD_and, BitVec.getLsbD_append]
  interval_cases i <;> simp [BitVec.getLsbD] <;> intro _ <;> decide

/-- The encoding of `i` has its row's fixed bits. -/
def EncodeFixed.Statement (i : Instr) : Prop := encode i &&& i.mask = i.matchBits

theorem EncodeFixed.nop : EncodeFixed.Statement .nop := by unfold EncodeFixed.Statement; decide

theorem EncodeFixed.mul (a b pol : Byte) : EncodeFixed.Statement (.mul a b pol) :=
  (formatS_and 1 b pol a).trans rfl

theorem EncodeFixed.inv (a pol : Byte) : EncodeFixed.Statement (.inv a pol) :=
  (formatS_zeroB_and 2 pol a).trans rfl

theorem EncodeFixed.eval (x : Byte) (L : Nat) (pol : Byte) : EncodeFixed.Statement (.eval x L pol) :=
  (formatS_and 3 (BitVec.ofNat 8 L) pol x).trans rfl

theorem EncodeFixed.encode (L N : Nat) (pol : Byte) : EncodeFixed.Statement (.encode L N pol) :=
  (formatV_and 4 (BitVec.ofNat 9 N) pol (BitVec.ofNat 8 L)).trans rfl

theorem EncodeFixed.solve (n : Nat) (pol : Byte) : EncodeFixed.Statement (.solve n pol) :=
  (formatV_zeroN_and 5 pol (BitVec.ofNat 8 n)).trans rfl

theorem EncodeFixed.decode (L N : Nat) (pol : Byte) : EncodeFixed.Statement (.decode L N pol) :=
  (formatV_and 6 (BitVec.ofNat 9 N) pol (BitVec.ofNat 8 L)).trans rfl

end Sys2Proof.Laws
end

