-- ==== Sys2Proof/Laws/Step.lean ====
section
/-!
SUPPORT. What a step can do, said once: the move it takes and the state that move gives (spec/10_state.md R21).
-/
namespace Sys2Proof.Machine

/-! ### Which agent moves -/

/-- The engine moves only while BUSY (R21). -/
theorem State.busy_of_engine {s : State} (h : s.nextMove = .engine) : s.phase = .busy := by
  unfold State.nextMove at h
  repeat' split at h
  all_goals first | assumption | simp at h

/-- While IDLE, with no hard reset at hand, the host port moves (R21). -/
theorem State.host_of_idle {s : State} (h : s.phase = .idle) (hr : ∀ keep rest, s.schedule ≠ .hardReset keep :: rest) :
    s.nextMove = .host := by
  unfold State.nextMove
  split
  · exact absurd ‹_› (hr _ _)
  all_goals simp [h]

/-- The host port passes a command in progress over only within `T_MAX` (R257). -/
theorem State.fits_of_host_busy {s : State} (h : s.nextMove = .host) (hb : s.phase = .busy) : s.hostFits = true := by
  unfold State.nextMove at h
  split at h
  · simp at h
  · simp only [hb] at h
    split at h
    · assumption
    · simp at h
  · simp [hb] at h
  · simp [hb] at h

/-- After the host port's move a command in progress has waited at most `T_MAX` (R257). -/
theorem State.age_waited_le {s : State} (h : s.nextMove = .host) (hb : s.phase = .busy) :
    s.age.waited ≤ Config.tMax s.cur := by
  simpa [State.age_waited, hb, State.hostFits] using State.fits_of_host_busy h hb

/-- When the host port's move would lie beyond `T_MAX`, only the engine or a hard reset can move (R257). -/
theorem State.engine_of_not_fits {s : State} (hb : s.phase = .busy) (hf : s.hostFits = false)
    (hr : ∀ keep rest, s.schedule ≠ .hardReset keep :: rest) : s.nextMove = .engine := by
  unfold State.nextMove
  split
  · exact absurd ‹_› (hr _ _)
  all_goals simp [hb, hf]

/-- With no choice left the engine moves as soon as it can, so a finite schedule never starves it (R257). -/
theorem State.engine_of_empty {s : State} (hb : s.phase = .busy) (hs : s.schedule = []) : s.nextMove = .engine := by
  simp [State.nextMove, hs, hb]

/-! ### The moves -/

/-- The host port's move: nothing pending, a held transaction, or a performed one. -/
theorem State.hostMove_cases (s : State) :
    s.pending = [] ∧ s.hostMove = s ∨
    (∃ t rest, s.pending = t :: rest ∧ s.held t = true ∧ s.hostMove = s) ∨
    (∃ t rest, s.pending = t :: rest ∧ s.held t = false ∧
      s.hostMove = State.perform { s with pending := rest } t) := by
  unfold State.hostMove
  split
  · next h => exact .inl ⟨h, rfl⟩
  · next t rest h =>
    cases hh : s.held t with
    | true => exact .inr (.inl ⟨t, rest, h, hh, by simp⟩)
    | false => exact .inr (.inr ⟨t, rest, h, hh, by simp⟩)

/-- The state the engine's move gives: the completion of `execute(CUR)` (R94). -/
theorem step_of_engine {s : State} (h : s.nextMove = .engine) :
    step s = .next (s.beginStep.complete (execute s.cur s.beginStep)) := by
  unfold step
  rw [h]
  simp only [State.fetched, execute]
  split <;> simp_all [exec_eq_complete, completeIllegal_eq]

theorem step_of_host {s : State} (h : s.nextMove = .host) : step s = .next s.age.beginStep.hostMove := by
  unfold step; rw [h]

theorem step_of_hardReset {s : State} {keep : Bool} (h : s.nextMove = .hardReset keep) :
    step s = .next (s.beginStep.resetMove keep) := by
  unfold step; rw [h]

/-- Everything a step can do. -/
theorem step_cases {s t : State} (h : step s = .next t) :
    (∃ keep, s.nextMove = .hardReset keep ∧ t = s.beginStep.resetMove keep) ∨
    (s.nextMove = .host ∧ t = s.age.beginStep.hostMove) ∨
    (s.nextMove = .engine ∧ t = s.beginStep.complete (execute s.cur s.beginStep)) := by
  cases hm : s.nextMove with
  | hardReset keep => rw [step_of_hardReset hm] at h; cases h; exact .inl ⟨keep, rfl, rfl⟩
  | host => rw [step_of_host hm] at h; cases h; exact .inr (.inl ⟨rfl, rfl⟩)
  | engine => rw [step_of_engine hm] at h; cases h; exact .inr (.inr ⟨rfl, rfl⟩)

end Sys2Proof.Machine
end

