-- ==== Sys2Proof/Machine/HostProgram.lean ====
section
/-!
DEFINITION. The assembler's pseudo-instructions and the host notation of spec/30_encoding.md R91, as transactions.
-/
namespace Sys2Proof.Machine

/-- `SQR a, pol`: `MUL a, a, pol` (R91). -/
def asmSqr (a pol : Byte) : Instr := .mul a a pol

/-- `WR off, v` (R91). -/
def hostWrite (off : Offset) (v : Word) : Transaction := ⟨true, off, v⟩

/-- `RD off` (R91). -/
def hostRead (off : Offset) : Transaction := ⟨false, off, 0⟩

/-- `ISSUE <command>`: `WR 0x808, enc(<command>)` (R91). -/
def hostIssue (i : Instr) : Transaction := hostWrite 0x808#12 (encode i)

/-- The first command of `DIV a, b, pol`: `INV b, pol` (R91). The host then reads RESULT to get `t`. -/
def divFirst (b pol : Byte) : Instr := .inv b pol

/-- The second command of `DIV a, b, pol`: `MUL a, t, pol` (R91). -/
def divSecond (a t pol : Byte) : Instr := .mul a t pol

/-- The word writes of consecutive bytes from window offset `off` on (R91 `FILL`): packed little-endian (R57), unnamed bytes
of a partly filled word 0. -/
def fillFrom : Nat → List Byte → List Transaction
  | _, [] => []
  | off, [a] => [hostWrite (BitVec.ofNat 12 off) ((0 : Byte) ++ (0 : Byte) ++ (0 : Byte) ++ a)]
  | off, [a, b] => [hostWrite (BitVec.ofNat 12 off) ((0 : Byte) ++ (0 : Byte) ++ b ++ a)]
  | off, [a, b, c] => [hostWrite (BitVec.ofNat 12 off) ((0 : Byte) ++ c ++ b ++ a)]
  | off, a :: b :: c :: d :: rest => hostWrite (BitVec.ofNat 12 off) (d ++ c ++ b ++ a) :: fillFrom (off + 4) rest

/-- `FILL X, k, b0 b1 …` (R91), `k` a multiple of 4. -/
def hostFill (x : Buf) (k : Nat) (bytes : List Byte) : List Transaction := fillFrom (x.base + k) bytes

end Sys2Proof.Machine
end

