-- ==== Sys2Proof/Tests/Slice0.lean ====
section
/-!
SUPPORT. The model's own tests. Expected values come from spec/95_test_vectors.md (the section is named at each group),
and words written bit by bit from spec/30_encoding.md.
-/
-- One theorem after another: many theorems that wait for the kernel at once take a thread and a stack each.
set_option Elab.async false

namespace Sys2Proof.Tests

open Sys2Proof.Machine

/-! ### WellFormed: one ill-formed term for each check -/

theorem test_wf_eval_length_refused : (Instr.eval 0 256 0).wf = false := by decide
theorem test_wf_encode_length_refused : (Instr.encode 256 5 0).wf = false := by decide
theorem test_wf_encode_count_refused : (Instr.encode 2 512 0).wf = false := by decide
theorem test_wf_solve_size_refused : (Instr.solve 256 0).wf = false := by decide
theorem test_wf_decode_length_refused : (Instr.decode 256 5 0).wf = false := by decide
theorem test_wf_decode_count_refused : (Instr.decode 2 512 0).wf = false := by decide

/-! ### Decoding: words written out field by field (R82, R83, R85) -/

-- OP 0000, all other bits 0
theorem test_decode_nop : decode 0b0000_0000_00000000_00000000_00000000#32 = .cmd .nop := by decide
-- OP 0001, RSV4, B = b = 80, POL = 1D, A = a = 02
theorem test_decode_mul :
    decode 0b0001_0000_10000000_00011101_00000010#32 = .cmd (.mul 0x02 0x80 0x1D) := by decide
-- OP 0010, RSV4, B = 0, POL = 1D, A = a = 8E
theorem test_decode_inv : decode 0b0010_0000_00000000_00011101_10001110#32 = .cmd (.inv 0x8E 0x1D) := by decide
-- OP 0011, RSV4, B = L = 255, POL = 1D, A = x = 03
theorem test_decode_eval :
    decode 0b0011_0000_11111111_00011101_00000011#32 = .cmd (.eval 0x03 255 0x1D) := by decide
-- OP 0100, RSV3, N = 256 (nine bits), POL = 1D, L = 2
theorem test_decode_encode :
    decode 0b0100_000_100000000_00011101_00000010#32 = .cmd (.encode 2 256 0x1D) := by decide
-- OP 0101, RSV3, N = 0, POL = 1D, L = n = 3
theorem test_decode_solve : decode 0b0101_000_000000000_00011101_00000011#32 = .cmd (.solve 3 0x1D) := by decide
-- OP 0110, RSV3, N = 30, POL = 1D, L = 20
theorem test_decode_decode :
    decode 0b0110_000_000011110_00011101_00010100#32 = .cmd (.decode 20 30 0x1D) := by decide
-- L2.7: reserved fields and opcodes
theorem test_decode_reserved_fields :
    [0x00000001#32, 0x0F000000#32, 0x1F000000#32, 0x20FF0000#32, 0x3FFF1D02#32, 0x43FF1DFF#32, 0x50800000#32,
      0x62000000#32].map decode = List.replicate 8 (.illegal .reservedField) := by decide
theorem test_decode_reserved_opcodes :
    [0x70000000#32, 0x80000000#32, 0xF0000000#32, 0xFFFFFFFF#32].map decode =
      List.replicate 4 (.illegal .reservedOpcode) := by decide
-- R90: enc(MUL a, b, pol) = 0x1<<28 | b<<16 | pol<<8 | a
theorem test_encode_mul : encode (.mul 0x02 0x80 0x1D) = 0x10801D02#32 := by decide
theorem test_decodeTableWord : decodeTableWord 32 0x60051D02 = some (.decode 2 5 0x1D) := by decide

/-! ### Small states -/

/-- The condition holds of the next state. -/
def next (o : Host.Outcome State Fault Refusal) (p : State → Bool) : Bool :=
  match o with
  | .next t => p t
  | .fault _ => false
  | .refused _ => false

/-- The reset state with bytes at the start of buffers. -/
def filled (l : List (Buf × List Byte)) : State := l.foldl (fun s x => s.writeBytes x.1 0 x.2) State.reset

/-- The first bytes of a buffer. -/
def firstBytes (s : State) (b : Buf) (n : Nat) : List Byte := s.elements b n

/-- 32 ERASE bytes, the first being `e` and the others 0. -/
def eraseOnly (e : Byte) : List Byte := e :: List.replicate 31 0

/-- The "HI" example of L1.1 with ERASE byte 0 equal to `e`, OUT preset to EE. -/
def hi (e : Byte) : State :=
  filled [(.msg, [0x48, 0x49]), (.pts, [0, 1, 2, 3, 4]), (.sym, [0x48, 0x01, 0xDA, 0x93, 0x71]), (.out, [0xEE, 0xEE, 0xEE]),
    (.erase, eraseOnly e)]

/-- IDLE with transactions pending. -/
def idle (ps : List Transaction) : State := { State.reset with pending := ps }

/-- BUSY with command word `w`, transactions pending and turns scheduled. -/
def busy (w : Word) (ps : List Transaction) (ms : List Turn) : State :=
  { State.reset.accept w with pending := ps, schedule := ms }

/-! ### One step of each command (L2) -/

-- L2.1: 02·80 = 1D and FF·FF = E2 under 1D
theorem test_mul_reduces :
    next (exec (.mul 0x02 0x80 0x1D) State.reset) (fun t => t.result == 0x1D#32 && t.statusWord == 0x2#32) = true := by
  decide
theorem test_mul_all_bits : gfMul 0xFF 0xFF 0x1D = 0xE2 ∧ gfMul 0x57 0x83 0x1B = 0xC1 ∧ gfMul 0x10 0x10 0x00 = 0 := by
  decide
-- L2.2
theorem test_inv_reports_zero :
    next (exec (.inv 0x00 0x1D) State.reset) (fun t => t.result == 0#32 && t.statusWord == 0x152#32) = true := by
  decide +kernel
theorem test_inv_of_two :
    next (exec (.inv 0x02 0x1D) State.reset) (fun t => t.result == 0x8E#32 && t.statusWord == 0x2#32) = true := by
  decide +kernel
-- L2.3: the "HI" message at 03, and L = 0
theorem test_eval_hi :
    next (exec (.eval 0x03 2 0x1D) (hi 0)) (fun t => t.result == 0x93#32 && t.status.err == 0) = true := by
  decide +kernel
theorem test_eval_empty_message :
    next (exec (.eval 0x03 0 0x1D) { hi 0 with result := 0x77 }) (fun t => t.result == 0x77#32 && t.status.err == 2) =
      true := by
  decide +kernel
-- L2.4: five symbols, and N = 257
theorem test_encode_hi :
    next (exec (.encode 2 5 0x1D) { hi 0 with bufs := (hi 0).bufs.write .sym 0 [0xEE, 0xEE, 0xEE, 0xEE, 0xEE, 0xEE] })
      (fun t => firstBytes t .sym 6 == [0x48, 0x01, 0xDA, 0x93, 0x71, 0xEE] && t.status.err == 0) = true := by
  decide +kernel
theorem test_encode_too_many_points :
    next (exec (.encode 2 257 0x1D) (hi 0)) (fun t => firstBytes t .sym 2 == [0x48, 0x01] && t.status.err == 2) =
      true := by
  decide +kernel
-- L2.5: three regular equations, and duplicate points
theorem test_solve_three :
    next (exec (.solve 3 0x1D) (filled [(.pts, [7, 8, 9]), (.sym, [0x27, 0x91, 0x81])]))
      (fun t => firstBytes t .out 3 == [0x10, 0x20, 0x30] && t.status.err == 0) = true := by
  decide +kernel
theorem test_solve_duplicate_points :
    next (exec (.solve 3 0x1D) (filled [(.pts, [1, 2, 1]), (.sym, [5, 6, 7])]))
      (fun t => firstBytes t .out 3 == [0x04, 0x01, 0x00] && t.statusWord == 0x162#32) = true := by
  decide +kernel
-- L2.6: positions 0 and 1 erased, and an erased position at N
theorem test_decode_hi :
    next (exec (.decode 2 5 0x1D) (hi 0x03)) (fun t => firstBytes t .out 3 == [0x48, 0x49, 0xEE] && t.status.err == 0) =
      true := by
  decide +kernel
theorem test_decode_erase_range :
    next (exec (.decode 2 5 0x1D) (hi 0x20)) (fun t => firstBytes t .out 2 == [0xEE, 0xEE] && t.status.err == 4) =
      true := by
  decide +kernel
-- L2.7
theorem test_nop : next (exec .nop State.reset) (fun t => t.statusWord == 0x2#32 && t.result == 0#32) = true := by decide
theorem test_illegal_word :
    next (step ((hi 0).withFetchWord 32 0x11801D02)) (fun t => t.statusWord == 0x112#32 && t.result == 0#32) = true := by
  decide +kernel
-- a step runs the word that withFetchWord places
theorem test_step_runs_word :
    next (step (State.reset.withFetchWord 32 0x10801D02)) (fun t => t.result == 0x1D#32 && t.phase == .idle) = true := by
  decide +kernel

/-! ### The host port (L2.8) -/

theorem test_write_packs_little_endian :
    next (step (idle [⟨true, 0x000, 0x04030201⟩])) (fun t => firstBytes t .msg 4 == [1, 2, 3, 4]) = true := by
  decide +kernel
theorem test_write_erase_word :
    next (step (idle [⟨true, 0x404, 0x80000001⟩]))
      (fun t => t.eraseBit 32 && t.eraseBit 63 && !t.eraseBit 33 && !t.eraseBit 62) = true := by
  decide +kernel
theorem test_ctrl_write_drops_reserved :
    next (step (idle [⟨true, 0x800, 0x7FFFFFFF⟩])) (fun t => t.ctrlWord == 3#32) = true := by decide +kernel
theorem test_ctrl_soft_reset :
    next (step { idle [⟨true, 0x800, 0xFFFFFFFC⟩] with ctrl := ⟨true, true⟩, result := 5 })
      (fun t => t.ctrlWord == 0#32 && t.statusWord == 0#32 && t.result == 0#32) = true := by decide +kernel
-- STATUS = 0x162 and WR 0x804, 0xFFFFFFFF gives 0x060
theorem test_status_w1c :
    next (step { idle [⟨true, 0x804, 0xFFFFFFFF⟩] with status := ⟨true, 6, true⟩ })
      (fun t => t.statusWord == 0x60#32) = true := by decide +kernel
theorem test_read_id :
    next (step (idle [⟨false, 0x810, 0⟩])) (fun t => t.response == some (.okRead 0x47460801)) = true := by decide +kernel
theorem test_misaligned_write_is_err :
    next (step (idle [⟨true, 0x003, 5⟩])) (fun t => t.response == some .errWrite && t.pending == []) = true := by
  decide +kernel
theorem test_reserved_write_is_err :
    next (step (idle [⟨true, 0x420, 1⟩])) (fun t => t.response == some .errWrite) = true := by decide +kernel
-- irq, L2.8's table: DONE with DONE_IE, and not with ERR_IE alone
theorem test_irq_done :
    ({ State.reset with status := ⟨true, 0, false⟩, ctrl := ⟨true, false⟩ } : State).irq = true ∧
    ({ State.reset with status := ⟨true, 0, false⟩, ctrl := ⟨false, true⟩ } : State).irq = false := by decide

-- R91, program P2 of L3: FILL PTS, 0, 00 01 02 03 04 and ISSUE ENCODE 2, 5, 0x1D
theorem test_host_notation :
    hostFill .pts 0 [0, 1, 2, 3, 4] = [⟨true, 0x100, 0x03020100⟩, ⟨true, 0x104, 0x00000004⟩] ∧
    hostIssue (.encode 2 5 0x1D) = ⟨true, 0x808, 0x40051D02⟩ := by decide +kernel

/-! ### Witnesses: states and operands that meet the hypotheses of the statements

Each theorem `witness_<Statement>` meets all hypotheses of one statement together, clause by clause, at boundary values where
a clause has a range. -/

/-- At the acceptance of a command a host turn of no cycles leaves the host port its move, whatever T_MAX is. -/
theorem busy_host_moves (s : State) (h : s.phase = .busy) (hw : s.waited = 0) (ts : List Turn)
    (hs : s.schedule = .host 0 :: ts) : s.nextMove = .host := by
  simp [State.nextMove, State.hostFits, State.turnCycles, hs, h, hw]

/-- A write of `v` to offset `a`. -/
def wr (a : Offset) (v : Word) : Transaction := ⟨true, a, v⟩

/-- A read of offset `a`. -/
def rd (a : Offset) : Transaction := ⟨false, a, 0⟩

theorem witness_StepKeepsInvariant :
    ((hi 0x03).Inv ∧ next (step (hi 0x03)) (fun _ => true) = true) ∧ (busy 0x40051D02 [] []).Inv := by
  exact ⟨⟨⟨by decide, by decide, by decide, fun h => absurd h (by decide), by decide⟩, by decide +kernel⟩, by decide,
    by decide, by decide, fun _ => ⟨rfl, rfl, Nat.zero_le _⟩, by decide⟩

theorem witness_HardResetLeavesSpecState :
    (busy 0x40051D02 [rd 0x000] [.hardReset true]).nextMove = .hardReset true ∧
    (busy 0x40051D02 [rd 0x000] [.hardReset false]).nextMove = .hardReset false := by decide

/-- IDLE; BUSY with an empty destination set; BUSY with RESULT; BUSY with the largest set, all 256 bytes of SYM. -/
theorem witness_SoftResetScramblesOnlyDestination :
    ((idle [wr 0x800 0x80000000]).nextMove = .host ∧ (0x80000000#32).getLsbD 31 = true) ∧
    ((busy 0x00000000 [wr 0x800 0x80000000] [.host 0]).nextMove = .host ∧
      dest 0x00000000 (busy 0x00000000 [wr 0x800 0x80000000] [.host 0]) = .nothing) ∧
    ((busy 0x10801D02 [wr 0x800 0x80000000] [.host 0]).nextMove = .host ∧
      dest 0x10801D02 (busy 0x10801D02 [wr 0x800 0x80000000] [.host 0]) = .result) ∧
    ((busy 0x41001D02 [wr 0x800 0x80000000] [.host 0]).nextMove = .host ∧
      dest 0x41001D02 (busy 0x41001D02 [wr 0x800 0x80000000] [.host 0]) = .bytes .sym 256) :=
  ⟨by decide, ⟨busy_host_moves _ rfl rfl [] rfl, by decide +kernel⟩,
    ⟨busy_host_moves _ rfl rfl [] rfl, by decide +kernel⟩, busy_host_moves _ rfl rfl [] rfl, by decide +kernel⟩

theorem witness_EngineAndSoftResetInEitherOrder :
    (busy 0x40051D02 [wr 0x800 0x80000000] []).phase = .busy ∧
    (busy 0x40051D02 [wr 0x800 0x80000000] []).waited + 0 ≤ Config.tMax 0x40051D02#32 ∧
    (0x80000000#32).getLsbD 31 = true :=
  ⟨rfl, Nat.zero_le _, by decide⟩

theorem witness_DecodeAndEncodeAgree :
    (Instr.decode 255 511 0xFF).wf = true ∧ decode 0x61FFFFFF#32 = .cmd (.decode 255 511 0xFF) := by decide

theorem witness_FieldsComeFromTheirBits :
    decode 0x10FE1D01#32 = .cmd (.mul 0x01 0xFE 0x1D) ∧ decode 0x20001DFF#32 = .cmd (.inv 0xFF 0x1D) ∧
    decode 0x30FF1D00#32 = .cmd (.eval 0x00 255 0x1D) ∧ decode 0x41FF1DFF#32 = .cmd (.encode 255 511 0x1D) ∧
    decode 0x50001DFF#32 = .cmd (.solve 255 0x1D) ∧ decode 0x61001D00#32 = .cmd (.decode 0 256 0x1D) := by decide

/-- One word for each case of R87. -/
theorem witness_IllegalWordCompletesWithoutWrites :
    (opField 0x70000000#32).toNat ≥ 7 ∧ (opField 0x00000001#32 = 0 ∧ (0x00000001#32) ≠ 0) ∧
    (opField 0x11801D02#32 = 1 ∧ 0x11801D02#32 &&& 0xFF000000#32 ≠ 0x10000000#32) ∧
    (opField 0x20011D02#32 = 2 ∧ 0x20011D02#32 &&& 0xFFFF0000#32 ≠ 0x20000000#32) ∧
    (opField 0x3FFF1D02#32 = 3 ∧ 0x3FFF1D02#32 &&& 0xFF000000#32 ≠ 0x30000000#32) ∧
    (opField 0x42051D02#32 = 4 ∧ 0x42051D02#32 &&& 0xFE000000#32 ≠ 0x40000000#32) ∧
    (opField 0x50011D02#32 = 5 ∧ 0x50011D02#32 &&& 0xFFFF0000#32 ≠ 0x50000000#32) ∧
    (opField 0x62051D02#32 = 6 ∧ 0x62051D02#32 &&& 0xFE000000#32 ≠ 0x60000000#32) ∧
    ((idle [wr 0x808 0x70000000]).phase = .idle ∧ (idle [wr 0x808 0x70000000]).nextMove = .host) ∧
    ((busy 0x62051D02 [] []).cur = 0x62051D02#32 ∧ (busy 0x62051D02 [] []).nextMove = .engine) := by decide

/-- A word that no row of R86 selects. -/
theorem witness_RowsSelectCommands :
    0x42051D02#32 &&& 0xFFFFFFFF#32 ≠ 0x00000000#32 ∧ 0x42051D02#32 &&& 0xFF000000#32 ≠ 0x10000000#32 ∧
    0x42051D02#32 &&& 0xFFFF0000#32 ≠ 0x20000000#32 ∧ 0x42051D02#32 &&& 0xFF000000#32 ≠ 0x30000000#32 ∧
    0x42051D02#32 &&& 0xFE000000#32 ≠ 0x40000000#32 ∧ 0x42051D02#32 &&& 0xFFFF0000#32 ≠ 0x50000000#32 ∧
    0x42051D02#32 &&& 0xFE000000#32 ≠ 0x60000000#32 := by decide

theorem witness_StepRunsDecodedCommand :
    (busy 0x40051D02 [] [.engine]).nextMove = .engine ∧
    decode (busy 0x40051D02 [] [.engine]).cur = .cmd (.encode 2 5 0x1D) ∧ 0xFFFFFFFF < 2 ^ 32 := by decide

theorem witness_CommandAcceptance :
    ((idle [wr 0x808 0x10801D02]).nextMove = .host ∧ (idle [wr 0x808 0x10801D02]).phase = .idle) ∧
    (busy 0x00000000 [wr 0x808 0x10801D02] [.host 0]).nextMove = .host :=
  ⟨by decide, busy_host_moves _ rfl rfl [] rfl⟩

theorem witness_CompletionAppliesExecute :
    (busy 0x40051D02 [rd 0x000] []).nextMove = .engine ∧ (busy 0x70000000 [] [.engine]).nextMove = .engine := by decide

/-- A polling host: the schedule gives it the first turns, and T_MAX decides how many it gets. -/
theorem witness_AcceptedCommandCompletesWithinTMax :
    (busy 0x40051D02 [rd 0x804, rd 0x200] [.host 0, .host 0, .host 7]).waited ≤ Config.tMax 0x40051D02#32 ∧
    (busy 0x40051D02 [rd 0x804, rd 0x200] [.host 0, .host 0, .host 7]).noHardReset ∧
    (busy 0x40051D02 [rd 0x804, rd 0x200] [.host 0, .host 0, .host 7]).noSoftReset :=
  ⟨Nat.zero_le _, by simp [State.noHardReset, busy], by simp [State.noSoftReset, busy, rd, Transaction.isSoftReset]⟩

/-- A held read while BUSY, and a read while IDLE. -/
theorem witness_EveryTransactionGetsAResponse :
    ((busy 0x40051D02 [rd 0x200] [.host 0]).noHardReset ∧ (busy 0x40051D02 [rd 0x200] [.host 0]).phase = .busy ∧
      (rd 0x200).waitsForIdle) ∧ (idle [rd 0x200]).noHardReset :=
  ⟨⟨by simp [State.noHardReset, busy], rfl, by simp [Transaction.waitsForIdle, rd]⟩,
    by simp [State.noHardReset, idle, State.reset]⟩

/-- A held read while BUSY: the step leaves the command in progress. -/
theorem witness_NoResultByteChangesWhileBusy :
    ∃ t, step (busy 0x40051D02 [rd 0x200] [.host 0]) = .next t ∧ t.phase = .busy :=
  ⟨_, step_of_host (busy_host_moves _ rfl rfl [] rfl), by decide +kernel⟩

theorem witness_IdleStepIgnoresCur :
    (idle [wr 0x808 0x10801D02]).phase = .idle ∧ next (step (idle [wr 0x808 0x10801D02])) (fun _ => true) = true := by
  decide +kernel

theorem witness_StatusReadSeesBusyOrComplete :
    (idle [wr 0x808 0x10801D02, rd 0x804]).phase = .idle ∧ 0 ≤ Config.tMax 0x10801D02#32 ∧
    (idle [wr 0x808 0x10801D02, rd 0x804]).noHardReset ∧
    (idle [wr 0x808 0x10801D02, rd 0x804]).pending = ⟨true, 0x808#12, 0x10801D02#32⟩ :: ⟨false, 0x804#12, 0#32⟩ :: [] :=
  ⟨rfl, Nat.zero_le _, by simp [State.noHardReset, idle, State.reset], rfl⟩

/-- The ends of the two reserved ranges, and misaligned offsets inside a mapped range and inside a reserved one. -/
theorem witness_BusErrorChangesNoState :
    ((idle [rd 0x420]).nextMove = .host ∧ (busy 0 [rd 0x420] [.host 0]).nextMove = .host) ∧
    ((0x003#12).toNat % 4 ≠ 0 ∧ (0x421#12).toNat % 4 ≠ 0 ∧ (0xFFF#12).toNat % 4 ≠ 0) ∧
    ((0x420 ≤ (0x420#12).toNat ∧ (0x420#12).toNat ≤ 0x7FF) ∧ (0x420 ≤ (0x7FC#12).toNat ∧ (0x7FC#12).toNat ≤ 0x7FF)) ∧
    (0x814 ≤ (0x814#12).toNat ∧ 0x814 ≤ (0xFFC#12).toNat) :=
  ⟨⟨by decide, busy_host_moves _ rfl rfl [] rfl⟩, by decide, by decide, by decide⟩

/-- Held: the first and the last buffer word, a CMD write and a RESULT read. Not held: a CMD read, a RESULT write, STATUS,
and the first reserved word. -/
theorem witness_HeldTransactionsWaitForIdle :
    (busy 0 [rd 0x41C] [.host 0]).nextMove = .host ∧
    ((rd 0x000).waitsForIdle ∧ (wr 0x41C 5).waitsForIdle ∧ (wr 0x808 0).waitsForIdle ∧ (rd 0x80C).waitsForIdle) ∧
    (¬ (rd 0x808).waitsForIdle ∧ ¬ (wr 0x80C 0).waitsForIdle ∧ ¬ (rd 0x804).waitsForIdle ∧ ¬ (rd 0x420).waitsForIdle) :=
  ⟨busy_host_moves _ rfl rfl [] rfl, by simp [Transaction.waitsForIdle, rd, wr],
    by simp [Transaction.waitsForIdle, rd, wr]⟩

theorem witness_BufferWordsAreLittleEndian :
    ((idle [rd 0x000]).nextMove = .host ∧ BitVec.ofNat 12 (Buf.base .msg + 4 * 0) = 0x000#12) ∧
    ((idle [wr 0x3FC 5]).nextMove = .host ∧ BitVec.ofNat 12 (Buf.base .out + 4 * 63) = 0x3FC#12) := by decide

theorem witness_EraseWordsHoldPositions :
    ((idle [rd 0x400]).nextMove = .host ∧ BitVec.ofNat 12 (0x400 + 4 * 0) = 0x400#12) ∧
    ((idle [wr 0x41C 5]).nextMove = .host ∧ BitVec.ofNat 12 (0x400 + 4 * 7) = 0x41C#12) := by decide

theorem witness_ReadsHaveNoSideEffect :
    (idle [rd 0x808]).nextMove = .host ∧ (busy 0 [rd 0x810] [.host 0]).nextMove = .host ∧
    (idle [wr 0x80C 5]).nextMove = .host ∧ (idle [wr 0x810 5]).nextMove = .host :=
  ⟨by decide, busy_host_moves _ rfl rfl [] rfl, by decide, by decide⟩

theorem witness_RegisterReadsReturnTheirBits :
    (idle [⟨false, 0x80C, 0⟩]).nextMove = .host ∧ (busy 0 [⟨false, 0x804, 0⟩] [.host 0]).nextMove = .host ∧
    (idle [⟨false, 0x800, 0⟩]).nextMove = .host :=
  ⟨by decide, busy_host_moves _ rfl rfl [] rfl, by decide⟩

theorem witness_CtrlWriteSetsEnables :
    ((idle [wr 0x800 0xFFFFFFFC]).nextMove = .host ∧ (0xFFFFFFFC#32).getLsbD 31 = true) ∧
    ((busy 0 [wr 0x800 0x7FFFFFFF] [.host 0]).nextMove = .host ∧ (0x7FFFFFFF#32).getLsbD 31 = false) :=
  ⟨by decide, busy_host_moves _ rfl rfl [] rfl, by decide⟩

theorem witness_StatusWriteClearsFlags :
    (idle [wr 0x804 0x102]).nextMove = .host ∧ (busy 0 [wr 0x804 0xFFFFFFFF] [.host 0]).nextMove = .host :=
  ⟨by decide, busy_host_moves _ rfl rfl [] rfl⟩

theorem witness_InterruptLineFollowsFlags :
    ((idle [wr 0x804 0x102]).nextMove = .host ∧ 0x102#32 &&& 0x102#32 = 0x102#32) ∧
    ((idle [wr 0x800 0x80000000]).nextMove = .host ∧ 0x80000000#32 &&& 3#32 = 0) := by decide

theorem witness_FieldDivision : invOk 0x02 0x1D = true := by decide +kernel

theorem witness_NopOnlyCompletes : opField 0x08000000#32 = 0 ∧ (0x08000000#32).extractLsb' 0 28 ≠ 0 := by decide

theorem witness_MulWritesProduct : opField 0x1F000000#32 = 1 ∧ (0x1F000000#32).extractLsb' 24 4 ≠ 0 := by decide

theorem witness_EvalWritesHornerValue :
    1 ≤ 1 ∧ 1 ≤ 255 ∧ opField 0x3FFF1D02#32 = 3 ∧ (0x3FFF1D02#32).extractLsb' 24 4 ≠ 0 := by decide

theorem witness_EncodeWritesSymbols :
    (1 ≤ 1 ∧ 0 ≤ 256) ∧ (1 ≤ 255 ∧ 256 ≤ 256) ∧ ((0 : Nat) = 0 ∨ 256 < 5) ∧ ((2 : Nat) = 0 ∨ 256 < 257) ∧
    (opField 0x4A000000#32 = 4 ∧ (0x4A000000#32).extractLsb' 25 3 ≠ 0) := by decide

/-- Two states with the same message and the point 07 in lane 0 of one and in lane 1 of the other. -/
theorem witness_EncodeLanesAreIndependent :
    (∀ k, k < 2 → (filled [(.msg, [0x48, 0x49]), (.pts, [7, 1])]).readByte .msg k =
      (filled [(.msg, [0x48, 0x49]), (.pts, [2, 7])]).readByte .msg k) ∧
    (filled [(.msg, [0x48, 0x49]), (.pts, [7, 1])]).readByte .pts 0 =
      (filled [(.msg, [0x48, 0x49]), (.pts, [2, 7])]).readByte .pts 1 ∧
    next (exec (.encode 2 1 0x1D) (filled [(.msg, [0x48, 0x49]), (.pts, [7, 1])])) (fun _ => true) = true ∧
    next (exec (.encode 2 2 0x1D) (filled [(.msg, [0x48, 0x49]), (.pts, [2, 7])])) (fun _ => true) = true := by
  decide +kernel

theorem witness_SolveWritesCoefficients : opField 0x50800000#32 = 5 ∧ (0x50800000#32).extractLsb' 16 12 ≠ 0 := by decide

theorem witness_SolutionWithoutPivotFaultIsExact : (gjSolve 2 [0x02, 0x03] [0xDA, 0x93] 0x1D).2 = false := by
  decide +kernel

theorem witness_DuplicatePointsAreSingular :
    (filled [(.pts, [1, 2, 1])]).readByte .pts 0 = (filled [(.pts, [1, 2, 1])]).readByte .pts 2 := by decide

/-- Positions 5 to 255 of the HI example are not erased, with ERASE byte 0 equal to 0F. -/
theorem hi_0F_in_range : ∀ p, 5 ≤ p → p ≤ 255 → (hi 0x0F).eraseBit p = false := by
  have key : ∀ p : Fin 256, 5 ≤ p.1 → (hi 0x0F).eraseBit p.1 = false := by decide +kernel
  exact fun p h5 h255 => key ⟨p, by omega⟩ h5

/-- With ERASE byte 0 equal to 03, exactly the positions 0 and 1 are erased. -/
theorem hi_03_bits : ∀ p, p ≤ 255 → (hi 0x03).eraseBit p = decide (p < 2) := by
  have key : ∀ p : Fin 256, (hi 0x03).eraseBit p.1 = decide (p.1 < 2) := by decide +kernel
  exact fun p h => key ⟨p, by omega⟩

/-- The same with ERASE byte 0 equal to 03. -/
theorem hi_03_in_range : ∀ p, 5 ≤ p → p ≤ 255 → (hi 0x03).eraseBit p = false := by
  have key : ∀ p : Fin 256, 5 ≤ p.1 → (hi 0x03).eraseBit p.1 = false := by decide +kernel
  exact fun p h5 h255 => key ⟨p, by omega⟩ h5

/-- N = 300; an erased position at N; one survivor of five; two chosen of three. -/
theorem witness_DecodeChecksThenSolves :
    256 < 257 ∧ (∃ p, 5 ≤ p ∧ p ≤ 255 ∧ (hi 0x20).eraseBit p = true) ∧
    ((∀ p, 5 ≤ p → p ≤ 255 → (hi 0x0F).eraseBit p = false) ∧ ((hi 0x0F).survivors 5).length < 2) ∧
    ((∀ p, 5 ≤ p → p ≤ 255 → (hi 0x03).eraseBit p = false) ∧ 2 ≤ ((hi 0x03).survivors 5).length) ∧
    (opField 0x62051D02#32 = 6 ∧ (0x62051D02#32).extractLsb' 25 3 ≠ 0) ∧
    (∀ p, p ≤ 255 → (hi 0x03).eraseBit p = decide (p < 2)) :=
  ⟨by decide, ⟨5, by decide +kernel⟩, ⟨hi_0F_in_range, by decide +kernel⟩,
    ⟨hi_03_in_range, by decide +kernel⟩, by decide, hi_03_bits⟩

/-- Two states that differ in a symbol beyond the chosen survivors (L2.6: SYM[4] corrupt). -/
theorem witness_DecodeUsesOnlyChosenSurvivors :
    (∀ p, p ≤ 255 → (hi 0x03).eraseBit p = ((hi 0x03).writeBytes .sym 4 [0x00]).eraseBit p) ∧
    (∀ p ∈ ((hi 0x03).survivors 5).take 2, (hi 0x03).readByte .pts p = ((hi 0x03).writeBytes .sym 4 [0x00]).readByte .pts p ∧
      (hi 0x03).readByte .sym p = ((hi 0x03).writeBytes .sym 4 [0x00]).readByte .sym p) :=
  ⟨fun _ _ => rfl, by decide +kernel⟩

/-- Two states that agree on what ENCODE reads and differ elsewhere. -/
theorem witness_CommandsAreStateless :
    agreeOnReads (.encode 2 5 0x1D) (hi 0x03) { hi 0x20 with result := 5, status := ⟨true, 3, true⟩ } := by
  unfold agreeOnReads; decide +kernel

/-- The byte behind ENCODE's range, a byte of a buffer it does not write, and a command that writes no buffer. -/
theorem witness_CommandsWriteOnlyTheirRange :
    (∀ n, fullDest (.encode 2 5 0x1D) = .bytes .sym n → n ≤ 5) ∧
    (∀ n, fullDest (.encode 2 5 0x1D) = .bytes .msg n → n ≤ 0) ∧
    (∀ n, fullDest (.mul 2 5 0x1D) = .bytes .sym n → n ≤ 0) ∧ fullDest (.encode 2 5 0x1D) ≠ .result :=
  ⟨fun n h => by simp [fullDest] at h; omega, fun n h => by simp [fullDest] at h, fun n h => by simp [fullDest] at h,
    by decide⟩

theorem witness_FailedCommandsWriteNothing :
    (execute 0x60051D02 (hi 0x20)).code ∈ [Code.illegal, .length, .insufficient, .eraseRange] ∧
    ((execute 0x60051D02 (hi 0x03)).code ∈ [Code.ok, .noninv, .singular] ∧
      decode 0x60051D02#32 = .cmd (.decode 2 5 0x1D) ∧ fullDest (.decode 2 5 0x1D) = .bytes .out 2) ∧
    (fullDest .nop = .nothing ∧ fullDest (.mul 2 3 0x1D) = .result) := by
  decide +kernel

/-- The table of R161 and R162 for the rule's example of equal points (R167), whose second pivot is 0. -/
def faultingTable (t j m : Nat) : Byte :=
  (([[[0x01, 0x05, 0x11], [0x01, 0x05, 0x22]], [[0x01, 0x05, 0x11], [0x00, 0x00, 0x33]],
    [[0x01, 0x05, 0x11], [0x00, 0x00, 0x33]]].getD t []).getD j []).getD m 0

/-- The work after the first pivot step of that example, a diagonal with a 0, and the states of the rule's two examples. -/
theorem witness_FaultingSolveValues :
    (1 < 2 ∧ (Work.mk [[0x01, 0x05, 0x11], [0x00, 0x00, 0x33]] false).w.length = 2 ∧
      (∀ r ∈ (Work.mk [[0x01, 0x05, 0x11], [0x00, 0x00, 0x33]] false).w, r.length = 2 + 1) ∧
      (Work.mk [[0x01, 0x05, 0x11], [0x00, 0x00, 0x33]] false).w.entry 1 1 = 0) ∧
    ((filled [(.pts, [0x05, 0x05]), (.sym, [0x11, 0x22])]).readByte .pts 1 = 0x05 ∧
      (filled [(.pts, [0x05, 0x05]), (.sym, [0x11, 0x22])]).readByte .sym 1 = 0x22) ∧
    (filled [(.pts, [0x00, 0x02])]).readByte .pts 1 = 0x02 := by decide +kernel

theorem witness_CompletionCodePriority :
    decode 0x62051D02#32 = .illegal .reservedField ∧ ((0 : Nat) = 0 ∨ 256 < 257) ∧ 256 < 257 ∧ (hi 0x20).eraseOutOfRange 5 = true ∧
    ((hi 0x0F).eraseOutOfRange 5 = false ∧ ((hi 0x0F).survivors 5).length < 2) ∧
    (effectOf (.inv 0 0x1D) (hi 0)).code = .noninv ∧
    (effectOf (.solve 3 0x1D) (filled [(.pts, [1, 2, 1]), (.sym, [5, 6, 7])])).code = .singular := by
  decide +kernel

/-! The polynomial of the source's example, `x^8+x^4+x^3+x^2+1` (0x1D), is irreducible over GF(2), and `x^8` is not. -/

open Polynomial in
/-- No factor of degree 1 to 4: the coefficients of a product of that shape never give the polynomial. -/
theorem poly_1D_no_factor (p : Polynomial (ZMod 2)) (hp : p = X ^ 8 + X ^ 4 + X ^ 3 + X ^ 2 + 1)
    (f g : Polynomial (ZMod 2)) (h : f * g = p) (d e : ℕ)
    (hf : f.coeff e = 1) (hf' : ∀ k, e < k → f.coeff k = 0) (hg : g.coeff d = 1) (hg' : ∀ k, d < k → g.coeff k = 0)
    (hd : d = 1 ∧ e = 7 ∨ d = 2 ∧ e = 6 ∨ d = 3 ∧ e = 5 ∨ d = 4 ∧ e = 4) : False := by
  have c : ∀ k, (f*g).coeff k = p.coeff k := fun k => by rw [h]
  subst hp
  have c0 := c 0
  have c1 := c 1
  have c2 := c 2
  have c3 := c 3
  have c4 := c 4
  have c5 := c 5
  have c6 := c 6
  have c7 := c 7
  simp [coeff_mul, Finset.Nat.antidiagonal_succ, coeff_one, coeff_X_pow] at c0 c1 c2 c3 c4 c5 c6 c7
  rcases hd with ⟨rfl, rfl⟩ | ⟨rfl, rfl⟩ | ⟨rfl, rfl⟩ | ⟨rfl, rfl⟩
  · simp only [hf, hg, hg' 2 (by decide), hg' 3 (by decide), hg' 4 (by decide), hg' 5 (by decide), hg' 6 (by decide), hg' 7 (by decide)] at c0 c1 c2 c3 c4 c5 c6 c7
    generalize f.coeff 0 = a0 at *
    generalize f.coeff 1 = a1 at *
    generalize f.coeff 2 = a2 at *
    generalize f.coeff 3 = a3 at *
    generalize f.coeff 4 = a4 at *
    generalize f.coeff 5 = a5 at *
    generalize f.coeff 6 = a6 at *
    generalize g.coeff 0 = b0 at *
    clear hf hg hf' hg' c h
    obtain ⟨rfl, rfl⟩ := c0
    simp only [mul_zero, mul_one, zero_add] at c1 c2 c3 c4 c5 c6 c7
    revert a1 a2 a3 a4 a5 a6
    decide +kernel
  · simp only [hf, hg, hf' 7 (by decide), hg' 3 (by decide), hg' 4 (by decide), hg' 5 (by decide), hg' 6 (by decide), hg' 7 (by decide)] at c0 c1 c2 c3 c4 c5 c6 c7
    generalize f.coeff 0 = a0 at *
    generalize f.coeff 1 = a1 at *
    generalize f.coeff 2 = a2 at *
    generalize f.coeff 3 = a3 at *
    generalize f.coeff 4 = a4 at *
    generalize f.coeff 5 = a5 at *
    generalize g.coeff 0 = b0 at *
    generalize g.coeff 1 = b1 at *
    clear hf hg hf' hg' c h
    obtain ⟨rfl, rfl⟩ := c0
    simp only [mul_zero, one_mul, mul_one, zero_add, add_zero] at c1 c2 c3 c4 c5 c6 c7
    revert a1 a2 a3 a4 a5 b1
    decide +kernel
  · simp only [hf, hg, hf' 6 (by decide), hf' 7 (by decide), hg' 4 (by decide), hg' 5 (by decide), hg' 6 (by decide), hg' 7 (by decide)] at c0 c1 c2 c3 c4 c5 c6 c7
    generalize f.coeff 0 = a0 at *
    generalize f.coeff 1 = a1 at *
    generalize f.coeff 2 = a2 at *
    generalize f.coeff 3 = a3 at *
    generalize f.coeff 4 = a4 at *
    generalize g.coeff 0 = b0 at *
    generalize g.coeff 1 = b1 at *
    generalize g.coeff 2 = b2 at *
    clear hf hg hf' hg' c h
    obtain ⟨rfl, rfl⟩ := c0
    simp only [zero_mul, mul_zero, one_mul, mul_one, zero_add, add_zero] at c1 c2 c3 c4 c5 c6 c7
    revert a1 a2 a3 a4 b1 b2
    decide +kernel
  · simp only [hf, hg, hf' 5 (by decide), hf' 6 (by decide), hf' 7 (by decide), hg' 5 (by decide), hg' 6 (by decide), hg' 7 (by decide)] at c0 c1 c2 c3 c4 c5 c6 c7
    generalize f.coeff 0 = a0 at *
    generalize f.coeff 1 = a1 at *
    generalize f.coeff 2 = a2 at *
    generalize f.coeff 3 = a3 at *
    generalize g.coeff 0 = b0 at *
    generalize g.coeff 1 = b1 at *
    generalize g.coeff 2 = b2 at *
    generalize g.coeff 3 = b3 at *
    clear hf hg hf' hg' c h
    obtain ⟨rfl, rfl⟩ := c0
    simp only [zero_mul, mul_zero, one_mul, mul_one, zero_add, add_zero] at c1 c2 c3 c4 c5 c6 c7
    revert a1 a2 a3 b1 b2 b3
    decide +kernel

open Polynomial in
theorem redPoly_1D : redPoly 0x1D = X ^ 8 + X ^ 4 + X ^ 3 + X ^ 2 + 1 := by
  have h : toPoly 0x1D = X ^ 4 + X ^ 3 + X ^ 2 + 1 := by
    unfold toPoly; simp [Finset.sum_range_succ]; ring
  rw [redPoly, h]; ring

open Polynomial in
theorem irreducible_1D : irreduciblePol 0x1D := by
  have hdeg : (X ^ 8 + X ^ 4 + X ^ 3 + X ^ 2 + 1 : Polynomial (ZMod 2)).natDegree = 8 := by compute_degree!
  have hmon : (X ^ 8 + X ^ 4 + X ^ 3 + X ^ 2 + 1 : Polynomial (ZMod 2)).Monic := by monicity!
  unfold irreduciblePol
  rw [redPoly_1D, hmon.irreducible_iff_natDegree']
  refine ⟨fun h => by rw [h, natDegree_one] at hdeg; omega, ?_⟩
  intro f g hf hg h hmem
  rw [hdeg] at hmem
  have hs : f.natDegree + g.natDegree = 8 := by rw [← hf.natDegree_mul hg, h, hdeg]
  simp only [Finset.mem_Ioc] at hmem
  refine poly_1D_no_factor _ rfl f g h g.natDegree f.natDegree hf.coeff_natDegree
    (fun k hk => coeff_eq_zero_of_natDegree_lt hk) hg.coeff_natDegree
    (fun k hk => coeff_eq_zero_of_natDegree_lt hk) ?_
  omega

open Polynomial in
theorem reducible_00 : ¬ irreduciblePol 0x00 := by
  have h : redPoly 0x00 = X * X ^ 7 := by
    have h0 : toPoly 0x00 = 0 := by unfold toPoly; simp
    rw [redPoly, h0]; ring
  unfold irreduciblePol
  rw [h]
  intro hi
  rcases hi.isUnit_or_isUnit rfl with hu | hu
  · exact not_isUnit_X hu
  · exact not_isUnit_X ((isUnit_pow_iff (by decide)).1 hu)

theorem witness_GfMulLaws :
    (irreduciblePol 0x1D ∧ gfMul 0x00 0x53 0x1D = 0) ∧ (0x53 : Byte) ≠ 0 ∧ ¬ irreduciblePol 0x00 :=
  ⟨⟨irreducible_1D, by decide⟩, by decide, reducible_00⟩

theorem witness_InverseCheckConsequences : irreduciblePol 0x1D ∧ (0xFF : Byte) ≠ 0 := ⟨irreducible_1D, by decide⟩

theorem witness_InvWritesInverseAndReports :
    ((0x03 : Byte) ≠ 0 ∧ invOk 0x03 0x00 = false) ∧ (irreduciblePol 0x1D ∧ (0x02 : Byte) ≠ 0) ∧
    (opField 0x20FF0000#32 = 2 ∧ (0x20FF0000#32).extractLsb' 16 12 ≠ 0) :=
  ⟨by decide +kernel, ⟨irreducible_1D, by decide⟩, by decide⟩

theorem witness_RegularSystemsAreSolved : irreduciblePol 0x1D ∧ ([0x00, 0x02, 0x03] : List Byte).Nodup :=
  ⟨irreducible_1D, by decide⟩

/-- The source's example (L1.1): "HI", five points, positions 0 and 1 erased. -/
theorem witness_DecodeRecoversMessage :
    irreduciblePol 0x1D ∧ ((hi 0x03).elements .pts 5).Nodup ∧ 2 ≤ ((hi 0x03).survivors 5).length ∧
    (∀ p, 5 ≤ p → p ≤ 255 → (hi 0x03).eraseBit p = false) ∧
    (∀ p ∈ (hi 0x03).survivors 5,
      (hi 0x03).readByte .sym p = horner [0x48, 0x49] ((hi 0x03).readByte .pts p) 0x1D) :=
  ⟨irreducible_1D, by decide +kernel, by decide +kernel, hi_03_in_range, by decide +kernel⟩

theorem witness_SolverFollowsTheRules :
    (∀ j, j < 2 → faultingTable 0 j 0 = 1 ∧
      (∀ i, 1 ≤ i → i < 2 → faultingTable 0 j i = gfMul (faultingTable 0 j (i - 1)) ([0x05, 0x05].getD j 0) 0x1D) ∧
      faultingTable 0 j 2 = [0x11, 0x22].getD j 0) ∧
    (∀ i j m, i < 2 → j < 2 → m ≤ 2 → faultingTable (i + 1) j m =
      if j = i then faultingTable i j m
      else gfAdd (faultingTable i j m)
        (gfMul (gfMul (faultingTable i j i) (gfInv (faultingTable i i i) 0x1D) 0x1D) (faultingTable i i m) 0x1D)) ∧
    irreduciblePol 0x1D := by
  have rows : ∀ j : Fin 2, faultingTable 0 j.1 0 = 1 ∧
      faultingTable 0 j.1 1 = gfMul (faultingTable 0 j.1 0) ([0x05, 0x05].getD j.1 0) 0x1D ∧
      faultingTable 0 j.1 2 = [0x11, 0x22].getD j.1 0 := by decide +kernel
  have steps : ∀ (i j : Fin 2) (m : Fin 3), faultingTable (i.1 + 1) j.1 m.1 =
      if j.1 = i.1 then faultingTable i.1 j.1 m.1
      else gfAdd (faultingTable i.1 j.1 m.1) (gfMul (gfMul (faultingTable i.1 j.1 i.1)
        (gfInv (faultingTable i.1 i.1 i.1) 0x1D) 0x1D) (faultingTable i.1 i.1 m.1) 0x1D) := by decide +kernel
  refine ⟨fun j hj => ⟨(rows ⟨j, hj⟩).1, fun i h1 h2 => ?_, (rows ⟨j, hj⟩).2.2⟩,
    fun i j m hi hj hm => steps ⟨i, hi⟩ ⟨j, hj⟩ ⟨m, by omega⟩, irreducible_1D⟩
  obtain rfl : i = 1 := by omega
  exact (rows ⟨j, hj⟩).2.1

end Sys2Proof.Tests
end

section
/-!
PROOFS of the family 10_state: what a write of CTRL or STATUS does at the host port (spec/10_state.md R25, R27), and that
a command depends on nothing but its word and the buffer ranges it reads (R37).
-/
namespace Sys2Proof.Machine

/-! ### The words of CTRL and STATUS, bit by bit (R24, R26) -/

theorem getLsbD_bitWord (b : Bool) (i : Nat) : (bitWord b).getLsbD i = (b && decide (i = 0)) := by
  cases b <;> simp [bitWord]

theorem State.getLsbD_ctrlWord (s : State) {i : Nat} (hi : i < 32) :
    s.ctrlWord.getLsbD i = if i = 0 then s.ctrl.doneIe else if i = 1 then s.ctrl.errIe else false := by
  simp only [State.ctrlWord, BitVec.getLsbD_or, BitVec.getLsbD_shiftLeft, getLsbD_bitWord]
  interval_cases i <;> simp

theorem State.getLsbD_statusWord (s : State) {i : Nat} (hi : i < 32) :
    s.statusWord.getLsbD i =
      if i = 0 then s.isBusy
      else if i = 1 then s.status.done
      else if 4 ≤ i ∧ i < 8 then s.status.err.getLsbD (i - 4)
      else if i = 8 then s.status.errs
      else false := by
  simp only [State.statusWord, BitVec.getLsbD_or, BitVec.getLsbD_shiftLeft, BitVec.getLsbD_setWidth, getLsbD_bitWord]
  interval_cases i <;> simp

/-- The two enables of a written CTRL word read back as its low two bits (R24, R25). -/
theorem State.ctrlWord_of_ctrl {s : State} {w : Word} (h : s.ctrl = ⟨w.getLsbD 0, w.getLsbD 1⟩) :
    s.ctrlWord = w &&& 3#32 := by
  apply BitVec.eq_of_getLsbD_eq
  intro i hi
  rw [State.getLsbD_ctrlWord s hi, h, BitVec.getLsbD_and]
  interval_cases i <;> simp

/-- W1C on the word the host reads: a STATUS write clears bits 1 and 8 where the written word has them (R27). -/
theorem State.statusWord_writeStatus (s : State) (w : Word) :
    (s.writeStatus w).statusWord = s.statusWord &&& ~~~(w &&& 0x102#32) := by
  apply BitVec.eq_of_getLsbD_eq
  intro i hi
  have hbusy : (s.writeStatus w).isBusy = s.isBusy := rfl
  rw [BitVec.getLsbD_and, BitVec.getLsbD_not, BitVec.getLsbD_and, State.getLsbD_statusWord _ hi,
    State.getLsbD_statusWord _ hi, State.writeStatus_status, hbusy]
  interval_cases i <;> simp

theorem State.statusWord_congr {s t : State} (h : t.toArch = s.toArch) : t.statusWord = s.statusWord := by
  simp only [State.statusWord, State.isBusy, h]

/-! ### The host port's write of a register that is never held (R60) -/

/-- The state in which the host port performs its transaction: the step has begun, and `rest` is still to come. -/
def State.dequeued (s : State) (rest : List Transaction) : State := { s.age.beginStep with pending := rest }

@[simp] theorem State.dequeued_pending (s : State) (rest : List Transaction) : (s.dequeued rest).pending = rest := rfl

@[simp] theorem State.dequeued_toArch (s : State) (rest : List Transaction) : (s.dequeued rest).toArch = s.toArch := by
  change s.age.toArch = s.toArch
  unfold State.age
  split <;> rfl

@[simp] theorem State.dequeued_draws (s : State) (rest : List Transaction) : (s.dequeued rest).draws = s.draws :=
  s.age_draws

/-- A write of a location that R60 does not hold is performed in the step that takes it, in either phase (R53). -/
theorem step_write_of_never_held {s : State} {addr : Offset} {w : Word} {rest : List Transaction} {l : Location}
    (hmove : s.nextMove = .host) (hpend : s.pending = ⟨true, addr, w⟩ :: rest) (hloc : target addr = .location l)
    (hfree : l.heldWhileBusy true = false) :
    step s = .next (((s.dequeued rest).writeLocation l w).respond .okWrite) := by
  have hpend' : s.age.beginStep.pending = ⟨true, addr, w⟩ :: rest := by simpa using hpend
  have hheld : s.age.beginStep.held ⟨true, addr, w⟩ = false := by
    rw [State.held_location hloc, hfree, Bool.and_false]
  have hmoved : s.age.beginStep.hostMove = (s.dequeued rest).perform ⟨true, addr, w⟩ := by
    simp only [State.hostMove, hpend', hheld]
    rfl
  rw [step_of_host hmove, hmoved, State.perform_write hloc rfl]

/-- The soft reset depends on the state of GF8RS and on the draw of its free values only (R252, log entry 1). -/
theorem State.softReset_toArch_congr {s t : State} (h : t.toArch = s.toArch) (hd : t.draws = s.draws) :
    t.softReset.toArch = s.softReset.toArch := by
  have hdest : dest t.cur t = dest s.cur s := by
    rw [show t.cur = s.cur by rw [h]]
    exact dest_congr _ (by rw [h])
  unfold State.softReset
  rw [hdest, h]
  split
  · cases dest s.cur s <;>
      simp only [State.scramble, State.clearRegisters, State.writeBytes, h, hd]
  · simp only [State.clearRegisters, h]

theorem State.writeLocation_ctrl_of_srst (s : State) {w : Word} (h : w.getLsbD 31 = true) :
    s.writeLocation .ctrl w = s.softReset := if_pos h

theorem State.writeLocation_ctrl_of_not_srst (s : State) {w : Word} (h : w.getLsbD 31 = false) :
    s.writeLocation .ctrl w = s.writeCtrl w := if_neg (by simp only [h, Bool.false_eq_true, not_false_eq_true])

theorem State.ctrlWord_softReset (s : State) : s.softReset.ctrlWord = 0 := by
  simp [State.ctrlWord, bitWord]

/-- Settles O26: a CTRL write is never held, and its bit 31 chooses between the soft reset and the enables. -/
theorem ctrlWriteSetsEnables : Obligations.CtrlWriteSetsEnables := by
  intro s w rest hmove hpend
  refine ⟨_, step_write_of_never_held hmove hpend (l := .ctrl) (by decide) rfl, rfl, by simp, ?_, ?_⟩
  · intro hsrst
    rw [State.respond_toArch, State.writeLocation_ctrl_of_srst _ hsrst]
    exact ⟨State.softReset_toArch_congr (s.dequeued_toArch rest) (s.dequeued_draws rest), State.ctrlWord_softReset _⟩
  · intro henables
    rw [State.writeLocation_ctrl_of_not_srst _ henables]
    refine ⟨State.ctrlWord_of_ctrl rfl, ?_⟩
    simp [State.irq]

/-- Settles O27: a STATUS write is never held, and the word it leaves is `State.statusWord_writeStatus`. -/
theorem statusWriteClearsFlags : Obligations.StatusWriteClearsFlags := by
  intro s w rest hmove hpend
  refine ⟨_, step_write_of_never_held hmove hpend (l := .status) (by decide) rfl, rfl, by simp, ?_, ?_⟩
  · rw [← State.statusWord_congr (s.dequeued_toArch rest)]
    exact State.statusWord_writeStatus _ w
  · simp [State.writeLocation]

/-! ### What a command reads (R34, R37) -/

section
variable {s t : State}

theorem State.elements_eq_of_agreeOnReads {i : Instr} {b : Buf} {n : Nat} (h : agreeOnReads i s t)
    (hr : (b, n) ∈ readRanges i) : s.elements b n = t.elements b n :=
  List.map_congr_left fun k hk => h (b, n) hr k (List.mem_range.1 hk)

theorem State.elementsAt_eq_of_agree {b : Buf} {n : Nat} {us : List Nat} (hus : ∀ p ∈ us, p < n)
    (h : ∀ k, k < n → s.readByte b k = t.readByte b k) : s.elementsAt b us = t.elementsAt b us :=
  List.map_congr_left fun p hp => h p (hus p hp)

theorem State.lt_of_mem_chosen {L N p : Nat} (h : p ∈ s.chosen L N) : p < N :=
  List.mem_range.1 (List.mem_of_mem_filter (List.mem_of_mem_take h))

/-- The ERASE bits of 256 positions lie in the bitmap's 32 bytes (R33). -/
theorem State.eraseBit_eq_of_agree (h : ∀ k, k < Config.eraseBytes → s.readByte .erase k = t.readByte .erase k)
    {p : Nat} (hp : p < Config.bufSize) : s.eraseBit p = t.eraseBit p := by
  have hbyte : s.readByte .erase (p / 8) = t.readByte .erase (p / 8) :=
    h _ (by simp only [Config.bufSize, Config.eraseBytes] at *; omega)
  exact congrArg (·.getLsbD (p % 8)) hbyte

theorem State.survivors_eq_of_agree (h : ∀ p, p < Config.bufSize → s.eraseBit p = t.eraseBit p) {N : Nat}
    (hN : N ≤ Config.bufSize) : s.survivors N = t.survivors N :=
  List.filter_congr fun p hp => by rw [h p (Nat.lt_of_lt_of_le (List.mem_range.1 hp) hN)]

theorem State.eraseOutOfRange_eq_of_agree (h : ∀ p, p < Config.bufSize → s.eraseBit p = t.eraseBit p) (N : Nat) :
    s.eraseOutOfRange N = t.eraseOutOfRange N := by
  rw [Bool.eq_iff_iff]
  simp only [State.eraseOutOfRange, List.any_eq_true]
  exact exists_congr fun p => and_congr_right fun hp => by rw [h p (List.mem_range.1 hp)]

/-- DECODE reads PTS and SYM at positions below N only, since its survivors lie there (R181). Beyond 256 symbols the
bitmap has no bit for a position, but such a count completes with code 2 before any is read (R93). -/
theorem decodeEffect_eq_of_agree (L N : Nat) (pol : Byte) (hpts : ∀ k, k < N → s.readByte .pts k = t.readByte .pts k)
    (hsym : ∀ k, k < N → s.readByte .sym k = t.readByte .sym k)
    (herase : ∀ k, k < Config.eraseBytes → s.readByte .erase k = t.readByte .erase k) :
    decodeEffect L N pol s = decodeEffect L N pol t := by
  unfold decodeEffect
  by_cases hN : Config.nMax < N
  · rw [if_pos hN, if_pos hN]
  · have hbits := fun p (hp : p < Config.bufSize) => State.eraseBit_eq_of_agree herase hp
    have hsurv : s.survivors N = t.survivors N := State.survivors_eq_of_agree hbits (Nat.le_of_not_lt hN)
    have hchosen : t.chosen L N = s.chosen L N := by rw [State.chosen, State.chosen, hsurv]
    have hbelow : ∀ p ∈ s.chosen L N, p < N := fun p hp => State.lt_of_mem_chosen hp
    rw [State.eraseOutOfRange_eq_of_agree hbits, hsurv, hchosen, State.elementsAt_eq_of_agree hbelow hpts,
      State.elementsAt_eq_of_agree hbelow hsym]

end

/-- Settles O49: command by command, the operands an effect is computed from lie in the ranges of R34. -/
theorem commandsAreStateless : Obligations.CommandsAreStateless := by
  intro i s t h
  cases i with
  | nop | mul | inv => rfl
  | eval x L pol =>
    have hmsg : s.elements .msg L = t.elements .msg L := State.elements_eq_of_agreeOnReads h (by simp [readRanges])
    simp only [effectOf, evalEffect, hmsg]
  | encode L N pol =>
    have hmsg : s.elements .msg L = t.elements .msg L := State.elements_eq_of_agreeOnReads h (by simp [readRanges])
    have hpts : s.elements .pts N = t.elements .pts N := State.elements_eq_of_agreeOnReads h (by simp [readRanges])
    simp only [effectOf, encodeEffect, hmsg, hpts]
  | solve n pol =>
    have hpts : s.elements .pts n = t.elements .pts n := State.elements_eq_of_agreeOnReads h (by simp [readRanges])
    have hsym : s.elements .sym n = t.elements .sym n := State.elements_eq_of_agreeOnReads h (by simp [readRanges])
    simp only [effectOf, solveEffect, hpts, hsym]
  | decode L N pol =>
    exact decodeEffect_eq_of_agree L N pol (h (.pts, N) (by simp [readRanges])) (h (.sym, N) (by simp [readRanges]))
      (h (.erase, Config.eraseBytes) (by simp [readRanges]))

end Sys2Proof.Machine
end

section
/-!
PROOFS of the family 20_memory: the host port's bus errors (spec/20_memory.md R56, R59), and the words of the byte buffers
and of ERASE as the host reads and writes them (R57, R58).
-/
namespace Sys2Proof.Machine

/-! ### A transaction that is not held is performed in the step that takes it (R51, R53) -/

theorem step_of_not_held {s : State} {x : Transaction} {rest : List Transaction} (hmove : s.nextMove = .host)
    (hpend : s.pending = x :: rest) (hheld : s.held x = false) : step s = .next ((s.dequeued rest).perform x) := by
  have hpend' : s.age.beginStep.pending = x :: rest := by simpa using hpend
  have hheld' : s.age.beginStep.held x = false := by simpa [State.held, State.isBusy] using hheld
  have hmoved : s.age.beginStep.hostMove = (s.dequeued rest).perform x := by
    simp only [State.hostMove, hpend', hheld']
    rfl
  rw [step_of_host hmove, hmoved]

@[simp] theorem State.readByte_dequeued (s : State) (rest : List Transaction) :
    (s.dequeued rest).readByte = s.readByte :=
  State.readByte_congr (by rw [State.dequeued_toArch])

/-! ### Bus errors (R56, R59) -/

theorem mapAligned_of_reserved {a : Nat} (h : (0x420 ≤ a ∧ a ≤ 0x7FF) ∨ 0x814 ≤ a) :
    mapAligned a = .error .reserved := by
  unfold mapAligned
  repeat rw [if_neg (by omega)]

/-- A misaligned or reserved offset selects no location. -/
theorem target_of_misaligned_or_reserved {addr : Offset}
    (h : addr.toNat % 4 ≠ 0 ∨ (0x420 ≤ addr.toNat ∧ addr.toNat ≤ 0x7FF) ∨ 0x814 ≤ addr.toNat) :
    ∃ e, target addr = .error e := by
  rw [target_eq]
  by_cases h4 : addr.toNat % 4 = 0
  · rw [if_pos h4, mapAligned_of_reserved (h.resolve_left (not_not_intro h4))]
    exact ⟨_, rfl⟩
  · rw [if_neg h4]
    exact ⟨_, rfl⟩

@[simp] theorem State.busError_busErr (s : State) (we : Bool) : (s.busError we).busErr = true := by
  cases we <;> rfl

theorem State.irq_congr {s t : State} (h : t.toArch = s.toArch) : t.irq = s.irq := by
  simp only [State.irq, h]

/-- Settles O20: such an offset selects an error, which is never held, and `State.busError` only responds. -/
theorem busErrorChangesNoState : Obligations.BusErrorChangesNoState := by
  intro s x rest hmove hpend hoff
  obtain ⟨e, herr⟩ := target_of_misaligned_or_reserved hoff
  have hstep : step s = .next ((s.dequeued rest).busError x.we) := by
    rw [step_of_not_held hmove hpend (State.held_error herr), State.perform_error herr]
  have harch : ((s.dequeued rest).busError x.we).toArch = s.toArch := by simp
  refine ⟨_, hstep, harch, State.irq_congr harch, by simp, State.busError_response_isSome _ _, by simp, ?_, ?_⟩
  · intro hwe
    rw [hwe]
    rfl
  · intro hwe
    rw [hwe]
    exact ⟨_, rfl⟩

/-! ### The packing of a word: byte `i` is its bits `8i+7:8i` (R57) -/

theorem State.extractLsb'_bufferWord (s : State) (b : Buf) (k : Nat) {i : Nat} (hi : i < 4) :
    (s.bufferWord b k).extractLsb' (8 * i) 8 = s.readByte b (k + i) := by
  have drop_byte {n m : Nat} (above : BitVec n) (lo : Byte) (h : 8 ≤ m) :
      (above ++ lo).extractLsb' m 8 = above.extractLsb' (m - 8) 8 := BitVec.extractLsb'_append_eq_of_le h
  unfold State.bufferWord
  match i with
  | 0 => exact BitVec.extractLsb'_append_eq_right
  | 1 => exact (drop_byte _ _ (by decide)).trans BitVec.extractLsb'_append_eq_right
  | 2 => exact (drop_byte _ _ (by decide)).trans ((drop_byte _ _ (by decide)).trans BitVec.extractLsb'_append_eq_right)
  | 3 => exact (drop_byte _ _ (by decide)).trans ((drop_byte _ _ (by decide)).trans BitVec.extractLsb'_append_eq_left)

@[simp] theorem wordBytes_length (v : Word) : (wordBytes v).length = 4 := rfl

theorem wordBytes_getD (v : Word) {i : Nat} (hi : i < 4) : (wordBytes v).getD i 0 = v.extractLsb' (8 * i) 8 := by
  interval_cases i <;> rfl

/-- Bit `j` of a word is bit `j mod 8` of its byte `j div 8`. -/
theorem getLsbD_eq_getLsbD_byte (v : Word) (j : Nat) :
    v.getLsbD j = (v.extractLsb' (8 * (j / 8)) 8).getLsbD (j % 8) := by
  rw [BitVec.getLsbD_extractLsb', Nat.div_add_mod, decide_eq_true (Nat.mod_lt j (by decide)), Bool.true_and]

/-- The bytes after a write of word `v` at index `k` (R57). -/
theorem State.readByte_writeWord (s : State) (b : Buf) (k : Nat) (v : Word) {i : Nat} (hi : i < 4) :
    (s.writeBytes b k (wordBytes v)).readByte b (k + i) = v.extractLsb' (8 * i) 8 := by
  rw [State.readByte_writeBytes_self, wordBytes_length, if_pos (by omega), Nat.add_sub_cancel_left, wordBytes_getD v hi]

theorem State.readByte_writeWord_outside (s : State) (b : Buf) {k j : Nat} (v : Word) (h : j < k ∨ k + 4 ≤ j) :
    (s.writeBytes b k (wordBytes v)).readByte b j = s.readByte b j := by
  rw [State.readByte_writeBytes_self, wordBytes_length, if_neg (by omega)]

/-! ### A buffer word at the host port, while IDLE (R54, R57, R60) -/

theorem mapAligned_base_add (b : Buf) {k : Nat} (hk : k < b.size) :
    mapAligned (b.base + k) = .location (.buffer b k) := by
  cases b <;> simp only [Buf.size, Config.bufSize, Config.eraseBytes] at hk <;>
    simp (disch := omega) only [mapAligned, Buf.base, if_neg, if_pos, Nat.add_sub_cancel_left, Nat.zero_add]

/-- The offset `B + 4w` of the address map (R54) selects the word of buffer `b` at index `4w`. -/
theorem target_bufferWord {b : Buf} {w : Nat} (hw : 4 * w < b.size) :
    target (BitVec.ofNat 12 (b.base + 4 * w)) = .location (.buffer b (4 * w)) := by
  have hbase : b.base % 4 = 0 ∧ b.base + b.size ≤ 0x420 := by cases b <;> decide
  have hoff : (BitVec.ofNat 12 (b.base + 4 * w)).toNat = b.base + 4 * w := by
    rw [BitVec.toNat_ofNat, Nat.mod_eq_of_lt (by omega)]
  rw [target_eq, hoff, if_pos (by omega), mapAligned_base_add b hw]

section
variable {s : State} {b : Buf} {w : Nat} {v : Word} {rest : List Transaction}

/-- A read of a buffer word returns the word and changes nothing of GF8RS. -/
theorem step_bufferWord_read (hw : 4 * w < b.size) (hidle : s.phase = .idle) (hmove : s.nextMove = .host)
    (hpend : s.pending = ⟨false, BitVec.ofNat 12 (b.base + 4 * w), v⟩ :: rest) :
    ∃ t, step s = .next t ∧ s.sameArch t ∧ t.pending = rest ∧
      t.response = some (.okRead (s.bufferWord b (4 * w))) := by
  refine ⟨_, step_of_not_held hmove hpend (State.held_idle hidle _), ?_⟩
  rw [State.perform_read (target_bufferWord hw) rfl]
  exact ⟨by simp [State.sameArch], rfl, by simp [State.readLocation, State.bufferWord]⟩

/-- A write of a buffer word stores its four bytes, and no other byte and no register changes. -/
theorem step_bufferWord_write (hw : 4 * w < b.size) (hidle : s.phase = .idle) (hmove : s.nextMove = .host)
    (hpend : s.pending = ⟨true, BitVec.ofNat 12 (b.base + 4 * w), v⟩ :: rest) :
    ∃ t, step s = .next t ∧ t.response = some .okWrite ∧ t.pending = rest ∧
      (∀ i, i < 4 → t.readByte b (4 * w + i) = v.extractLsb' (8 * i) 8) ∧
      (∀ k, k < 4 * w ∨ 4 * w + 4 ≤ k → t.readByte b k = s.readByte b k) ∧
      (∀ b', b' ≠ b → s.sameBuffer t b') ∧ t.ctrl = s.ctrl ∧ t.status = s.status ∧ t.result = s.result ∧
      t.phase = s.phase ∧ t.cur = s.cur := by
  have hstep : step s = .next (((s.dequeued rest).writeBytes b (4 * w) (wordBytes v)).respond .okWrite) := by
    rw [step_of_not_held hmove hpend (State.held_idle hidle _), State.perform_write (target_bufferWord hw) rfl]
    rfl
  have hread : (s.dequeued rest).readByte = s.readByte := State.readByte_dequeued s rest
  refine ⟨_, hstep, rfl, rfl, fun i hi => State.readByte_writeWord _ b _ v hi, fun k hk => ?_, fun b' hb' k => ?_, ?_⟩
  · rw [← hread]
    exact State.readByte_writeWord_outside _ b v hk
  · rw [← hread]
    exact State.readByte_writeBytes_other _ _ _ _ hb'
  · simp

end

/-- Settles O22: a byte buffer's word at the host port, its bytes by the packing of `State.bufferWord`. -/
theorem bufferWordsAreLittleEndian : Obligations.BufferWordsAreLittleEndian := by
  intro s b w v we rest hb hw hidle hmove hpend
  have hsize : 4 * w < b.size := by
    cases b with
    | msg | pts | sym | out => change 4 * w < 256; omega
    | erase => exact absurd rfl hb
  constructor
  · rintro rfl
    obtain ⟨t, hstep, harch, hrest, hresp⟩ := step_bufferWord_read hsize hidle hmove hpend
    exact ⟨t, _, hstep, harch, hrest, hresp, fun i hi => s.extractLsb'_bufferWord b (4 * w) hi⟩
  · rintro rfl
    exact step_bufferWord_write hsize hidle hmove hpend

/-! ### ERASE positions (R58) -/

theorem State.eraseBit_eq_getLsbD (s : State) (p : Nat) :
    s.eraseBit p = (s.readByte .erase (p / 8)).getLsbD (p % 8) := rfl

/-- Position `32w + b` is bit `b mod 8` of byte `4w + b div 8`, which is in ERASE word `w`. -/
theorem State.eraseBit_of_word (s : State) (w b : Nat) :
    s.eraseBit (32 * w + b) = (s.readByte .erase (4 * w + b / 8)).getLsbD (b % 8) := by
  rw [State.eraseBit_eq_getLsbD, show (32 * w + b) / 8 = 4 * w + b / 8 by omega,
    show (32 * w + b) % 8 = b % 8 by omega]

/-- Settles O23: ERASE is held by bytes, so its words are buffer words, read bit by bit. -/
theorem eraseWordsHoldPositions : Obligations.EraseWordsHoldPositions := by
  intro s w v we rest hw hidle hmove hpend
  have hsize : 4 * w < Buf.erase.size := by
    change 4 * w < 32
    omega
  constructor
  · rintro rfl
    obtain ⟨t, hstep, harch, hrest, hresp⟩ := step_bufferWord_read hsize hidle hmove hpend
    refine ⟨t, _, hstep, harch, hrest, hresp, fun b hb => ?_⟩
    rw [getLsbD_eq_getLsbD_byte, State.extractLsb'_bufferWord _ _ _ (by omega), State.eraseBit_of_word]
  · rintro rfl
    obtain ⟨t, hstep, hresp, hrest, hword, hother, hframe⟩ := step_bufferWord_write hsize hidle hmove hpend
    refine ⟨t, hstep, hresp, hrest, fun b hb => ?_, fun p hp => ?_, hframe⟩
    · rw [State.eraseBit_of_word, hword _ (by omega), ← getLsbD_eq_getLsbD_byte]
    · rw [State.eraseBit_eq_getLsbD, State.eraseBit_eq_getLsbD, hother _ (by omega)]

end Sys2Proof.Machine
end

section
/-!
PROOFS of the family 30_encoding: the row of R86 that selects a word, ILLEGAL words (R87), acceptance (R92), and which
codes write the destination set of a command (spec/30_encoding.md R95, spec/60_exceptions.md R214).
-/
namespace Sys2Proof

/-! ### The rows of R86: OP, and reserved bits that are 0 -/

/-- The lowest bit of an opcode's mask (R86). The bits from it up to OP are reserved, but for NOP, whose word is all 0. -/
def lowestMaskBit (op : BitVec 4) : Nat :=
  match op.toNat with
  | 0 => 0
  | 1 | 3 => 24
  | 2 | 5 => 16
  | _ => 25

/-- The bits of `w` below OP that the row of opcode `op` requires to be 0. -/
def maskedBelowOp (op : BitVec 4) (w : Word) : BitVec (28 - lowestMaskBit op) :=
  w.extractLsb' (lowestMaskBit op) (28 - lowestMaskBit op)

theorem Instr.mask_eq (i : Instr) : i.mask = BitVec.allOnes 32 <<< lowestMaskBit i.opcode := by
  cases i <;> simp only [Instr.mask, Instr.opcode] <;> decide

theorem Instr.matchBits_eq (i : Instr) : i.matchBits = i.opcode ++ (0 : BitVec 28) := by
  cases i <;> simp only [Instr.matchBits, Instr.opcode] <;> decide

theorem Instr.opcode_lt (i : Instr) : i.opcode.toNat < 7 := by
  cases i <;> simp [Instr.opcode]

theorem lowestMaskBit_le (op : BitVec 4) : lowestMaskBit op ≤ 28 := by
  revert op
  decide

theorem getLsbD_and_highMask (w : Word) (p : Nat) {i : Nat} (hi : i < 32) :
    (w &&& BitVec.allOnes 32 <<< p).getLsbD i = (decide (p ≤ i) && w.getLsbD i) := by
  rw [BitVec.getLsbD_and, BitVec.getLsbD_shiftLeft, BitVec.getLsbD_allOnes, Bool.and_comm, decide_eq_true hi,
    decide_eq_true (show i - p < 32 by omega)]
  simp only [Bool.true_and, Bool.and_true, ← decide_not, Nat.not_lt]

theorem getLsbD_opcode_append_zero (op : BitVec 4) (i : Nat) :
    (op ++ (0 : BitVec 28) : Word).getLsbD i = (decide (28 ≤ i) && op.getLsbD (i - 28)) := by
  rw [BitVec.getLsbD_append]
  split <;> simp <;> omega

/-- A word's bits from `p` on are an opcode above zeros exactly when OP is that opcode and the bits between are 0. -/
theorem and_highMask_eq_iff (w : Word) (op : BitVec 4) {p : Nat} (hp : p ≤ 28) :
    w &&& BitVec.allOnes 32 <<< p = (op ++ (0 : BitVec 28) : Word) ↔
      opField w = op ∧ w.extractLsb' p (28 - p) = 0 := by
  constructor
  · intro h
    have heq (i : Nat) (hi : i < 32) : (decide (p ≤ i) && w.getLsbD i) = (decide (28 ≤ i) && op.getLsbD (i - 28)) := by
      rw [← getLsbD_and_highMask w p hi, h, getLsbD_opcode_append_zero]
    constructor
    · apply BitVec.eq_of_getLsbD_eq
      intro j hj
      have := heq (28 + j) (by omega)
      simpa [opField, hj, show p ≤ 28 + j by omega] using this
    · apply BitVec.eq_of_getLsbD_eq
      intro j hj
      have := heq (p + j) (by omega)
      simpa [hj, show ¬ 28 ≤ p + j by omega] using this
  · rintro ⟨rfl, hzero⟩
    apply BitVec.eq_of_getLsbD_eq
    intro i hi
    rw [getLsbD_and_highMask w p hi, getLsbD_opcode_append_zero, opField, BitVec.getLsbD_extractLsb']
    by_cases h28 : 28 ≤ i
    · simp [h28, show p ≤ i by omega, show i - 28 < 4 by omega]
    · by_cases hpi : p ≤ i
      · have := congrArg (·.getLsbD (i - p)) hzero
        simpa [h28, hpi, show i - p < 28 - p by omega] using this
      · simp [h28, hpi]

/-- R86's test in terms of fields. -/
theorem and_mask_eq_matchBits_iff (w : Word) (i : Instr) :
    w &&& i.mask = i.matchBits ↔ opField w = i.opcode ∧ maskedBelowOp i.opcode w = 0 := by
  rw [Instr.mask_eq, Instr.matchBits_eq]
  exact and_highMask_eq_iff w i.opcode (lowestMaskBit_le _)

/-! ### The decoder (R86 to R88) -/

theorem guardReserved_eq_cmd_iff {z : Bool} {i j : Instr} : guardReserved z i = .cmd j ↔ z = true ∧ i = j := by
  cases z <;> simp [guardReserved]

/-- What the decoder can answer: a command of the word's opcode, guarded by the bits of its row, or ILLEGAL from OP 7 on. -/
theorem decode_cases (w : Word) :
    (∃ i : Instr, i.opcode = opField w ∧ decode w = guardReserved (maskedBelowOp (opField w) w == 0) i) ∨
    7 ≤ (opField w).toNat ∧ decode w = .illegal .reservedOpcode := by
  have known {op : BitVec 4} {z : Bool} {i : Instr} (h : (opField w).toNat = op.toNat) (hi : i.opcode = op)
      (hz : z = (maskedBelowOp op w == 0)) :
      ∃ j : Instr, j.opcode = opField w ∧ guardReserved z i = guardReserved (maskedBelowOp (opField w) w == 0) j := by
    obtain rfl : opField w = op := BitVec.eq_of_toNat_eq h
    exact ⟨i, hi, by rw [hz]⟩
  unfold decode
  split
  case h_1 h => exact .inl (known (op := 0) h rfl rfl)
  case h_2 h => exact .inl (known (op := 1) h rfl rfl)
  case h_3 h => exact .inl (known (op := 2) h rfl rfl)
  case h_4 h => exact .inl (known (op := 3) h rfl rfl)
  case h_5 h => exact .inl (known (op := 4) h rfl rfl)
  case h_6 h => exact .inl (known (op := 5) h rfl rfl)
  case h_7 h => exact .inl (known (op := 6) h rfl rfl)
  case h_8 =>
    refine .inr ⟨?_, rfl⟩
    simp only [imp_false] at *
    omega

/-- A word that decodes to a command has its opcode and is selected by its row. -/
theorem opcode_and_row_of_decode {w : Word} {i : Instr} (h : decode w = .cmd i) :
    i.opcode = opField w ∧ w &&& i.mask = i.matchBits := by
  obtain ⟨j, hop, hj⟩ | ⟨-, hill⟩ := decode_cases w
  · obtain ⟨hzero, rfl⟩ := guardReserved_eq_cmd_iff.1 (hj.symm.trans h)
    exact ⟨hop, (and_mask_eq_matchBits_iff w j).2 ⟨hop.symm, hop ▸ eq_of_beq hzero⟩⟩
  · rw [hill] at h
    cases h

/-- A word decodes to a command of `i`'s opcode exactly when `i`'s row selects it. -/
theorem exists_decode_iff (w : Word) (i : Instr) :
    (∃ j, decode w = .cmd j ∧ j.opcode = i.opcode) ↔ w &&& i.mask = i.matchBits := by
  constructor
  · rintro ⟨j, hj, hop⟩
    obtain ⟨-, hrow⟩ := opcode_and_row_of_decode hj
    rwa [Instr.mask_eq, Instr.matchBits_eq, ← hop, ← Instr.mask_eq, ← Instr.matchBits_eq]
  · intro hrow
    obtain ⟨hi, hzero⟩ := (and_mask_eq_matchBits_iff w i).1 hrow
    obtain ⟨j, hop, hj⟩ | ⟨hge, -⟩ := decode_cases w
    · rw [← hi] at hzero
      exact ⟨j, hj.trans (guardReserved_eq_cmd_iff.2 ⟨beq_iff_eq.2 hzero, rfl⟩), hop.trans hi⟩
    · have := i.opcode_lt
      rw [hi] at hge
      omega

/-- A word that decodes to a command is selected by every row of its opcode. -/
theorem row_of_decode {w : Word} {i j : Instr} (hi : decode w = .cmd i) (hj : opField w = j.opcode) :
    w &&& j.mask = j.matchBits :=
  (exists_decode_iff w j).1 ⟨i, hi, (opcode_and_row_of_decode hi).1.trans hj⟩

theorem Instr.exists_iff {P : Instr → Prop} :
    (∃ i, P i) ↔ P .nop ∨ (∃ a b pol, P (.mul a b pol)) ∨ (∃ a pol, P (.inv a pol)) ∨
      (∃ x L pol, P (.eval x L pol)) ∨ (∃ L N pol, P (.encode L N pol)) ∨ (∃ n pol, P (.solve n pol)) ∨
      (∃ L N pol, P (.decode L N pol)) := by
  constructor
  · rintro ⟨i, hi⟩
    cases i with
    | nop => exact .inl hi
    | mul a b pol => exact .inr (.inl ⟨a, b, pol, hi⟩)
    | inv a pol => exact .inr (.inr (.inl ⟨a, pol, hi⟩))
    | eval x L pol => exact .inr (.inr (.inr (.inl ⟨x, L, pol, hi⟩)))
    | encode L N pol => exact .inr (.inr (.inr (.inr (.inl ⟨L, N, pol, hi⟩))))
    | solve n pol => exact .inr (.inr (.inr (.inr (.inr (.inl ⟨n, pol, hi⟩)))))
    | decode L N pol => exact .inr (.inr (.inr (.inr (.inr (.inr ⟨L, N, pol, hi⟩)))))
  · rintro (h | ⟨_, _, _, h⟩ | ⟨_, _, h⟩ | ⟨_, _, _, h⟩ | ⟨_, _, _, h⟩ | ⟨_, _, h⟩ | ⟨_, _, _, h⟩) <;> exact ⟨_, h⟩

end Sys2Proof

namespace Sys2Proof.Machine

/-! ### The words that no row selects (R86, R87) -/

theorem execute_of_cmd {w : Word} {i : Instr} (h : decode w = .cmd i) (s : State) : execute w s = effectOf i s := by
  rw [execute, h]

theorem execute_of_illegal {w : Word} {why : IllegalReason} (h : decode w = .illegal why) (s : State) :
    execute w s = illegalEffect := by
  rw [execute, h]

theorem illegalWord_of_not_cmd {w : Word} (h : ∀ i, decode w ≠ .cmd i) : illegalWord w := by
  obtain ⟨why, hwhy⟩ : ∃ why, decode w = .illegal why := by
    cases hd : decode w with
    | cmd i => exact absurd hd (h i)
    | illegal why => exact ⟨why, rfl⟩
  exact ⟨⟨why, hwhy⟩, execute_of_illegal hwhy⟩

/-- Settles O7: each row by `exists_decode_iff` for a command of the row, and a word that decodes to a command is selected. -/
theorem rowsSelectCommands : Obligations.RowsSelectCommands := by
  intro w
  refine ⟨.trans ?nop (exists_decode_iff w .nop), .trans ?mul (exists_decode_iff w (.mul 0 0 0)),
    .trans ?inv (exists_decode_iff w (.inv 0 0)), .trans ?eval (exists_decode_iff w (.eval 0 0 0)),
    .trans ?encode (exists_decode_iff w (.encode 0 0 0)), .trans ?solve (exists_decode_iff w (.solve 0 0)),
    .trans ?decode (exists_decode_iff w (.decode 0 0 0)), ?none⟩
  case none =>
    intro hnop hmul hinv heval hencode hsolve hdecode
    refine illegalWord_of_not_cmd fun i hi => ?_
    obtain ⟨-, hrow⟩ := opcode_and_row_of_decode hi
    cases i with
    | nop => exact hnop hrow
    | mul => exact hmul hrow
    | inv => exact hinv hrow
    | eval => exact heval hrow
    | encode => exact hencode hrow
    | solve => exact hsolve hrow
    | decode => exact hdecode hrow
  all_goals simp [Instr.exists_iff, Instr.opcode]

/-! ### Acceptance (R92) -/

/-- A held transaction stays outstanding, and the step gives no response (R60). -/
theorem step_of_held {s : State} {x : Transaction} {rest : List Transaction} (hmove : s.nextMove = .host)
    (hpend : s.pending = x :: rest) (hheld : s.held x = true) : step s = .next s.age.beginStep := by
  have hpend' : s.age.beginStep.pending = x :: rest := by simpa using hpend
  have hheld' : s.age.beginStep.held x = true := by simpa [State.held, State.isBusy] using hheld
  have hmoved : s.age.beginStep.hostMove = s.age.beginStep := by
    simp only [State.hostMove, hpend', hheld', if_true]
  rw [step_of_host hmove, hmoved]

theorem target_cmd : target 0x808#12 = .location .cmd := by decide

section
variable {s : State} {w : Word} {rest : List Transaction}

theorem step_cmdWrite_idle (hmove : s.nextMove = .host) (hpend : s.pending = ⟨true, 0x808#12, w⟩ :: rest)
    (hidle : s.phase = .idle) : step s = .next (((s.dequeued rest).accept w).respond .okWrite) := by
  rw [step_of_not_held hmove hpend (State.held_idle hidle _), State.perform_write target_cmd rfl]
  rfl

theorem step_cmdWrite_busy (hmove : s.nextMove = .host) (hpend : s.pending = ⟨true, 0x808#12, w⟩ :: rest)
    (hbusy : s.phase = .busy) : step s = .next s.age.beginStep := by
  refine step_of_held hmove hpend ?_
  rw [State.held_location target_cmd, State.isBusy, hbusy]
  rfl

end

@[simp] theorem State.readByte_accept (s : State) (w : Word) : (s.accept w).readByte = s.readByte :=
  State.readByte_congr rfl

@[simp] theorem State.readByte_respond (s : State) (r : Response) : (s.respond r).readByte = s.readByte :=
  State.readByte_congr rfl

theorem State.toArch_age (s : State) : s.age.toArch = s.toArch := s.dequeued_toArch []

/-- Settles O13: while IDLE the step is `State.accept`, and while BUSY the write is held. -/
theorem commandAcceptance : Obligations.CommandAcceptance := by
  intro s w rest hmove hpend
  constructor
  · intro hidle
    refine ⟨_, step_cmdWrite_idle hmove hpend hidle, rfl, rfl, rfl, rfl, by simp, by simp, by simp, ?_, ?_, rfl, rfl⟩
    · intro b k
      simp
    · rw [State.getLsbD_statusWord _ (by decide), if_pos rfl]
      rfl
  · intro hbusy
    exact ⟨_, step_cmdWrite_busy hmove hpend hbusy, s.toArch_age, rfl, by simp⟩

/-- Settles O9: if such a word decoded to a command, the row of its opcode would select it, so it is ILLEGAL. It is accepted
as any word is, and the engine completes it with code 1. -/
theorem illegalWordCompletesWithoutWrites : Obligations.IllegalWordCompletesWithoutWrites := by
  intro w s h
  have hill : illegalWord w := by
    refine illegalWord_of_not_cmd fun i hi => ?_
    rcases h with hge | ⟨h, hne⟩ | ⟨h, hne⟩ | ⟨h, hne⟩ | ⟨h, hne⟩ | ⟨h, hne⟩ | ⟨h, hne⟩ | ⟨h, hne⟩
    · rw [← (opcode_and_row_of_decode hi).1] at hge
      exact absurd i.opcode_lt (Nat.not_lt.2 hge)
    · exact hne (BitVec.and_allOnes.symm.trans (row_of_decode (j := .nop) hi h))
    · exact hne (row_of_decode (j := .mul 0 0 0) hi h)
    · exact hne (row_of_decode (j := .inv 0 0) hi h)
    · exact hne (row_of_decode (j := .eval 0 0 0) hi h)
    · exact hne (row_of_decode (j := .encode 0 0 0) hi h)
    · exact hne (row_of_decode (j := .solve 0 0) hi h)
    · exact hne (row_of_decode (j := .decode 0 0 0) hi h)
  refine ⟨hill, fun rest hidle hmove hpend => ?_, fun hcur hmove => ?_⟩
  · exact ⟨_, step_cmdWrite_idle hmove hpend hidle, rfl, rfl, rfl⟩
  · obtain ⟨-, hexec⟩ := hill
    have hstep : step s = .next (s.beginStep.complete ⟨.illegal, .nothing⟩) := by
      rw [step_of_engine hmove, hcur, hexec]
    exact ⟨_, hstep, rfl, rfl, Bool.or_true _, rfl, rfl, fun b k => rfl, rfl⟩

/-! ### Which codes write (R95, R214) -/

/-- A command either fails a check with no writes, or its writes cover the whole of its range. -/
theorem effectOf_code_and_writes (i : Instr) (s : State) :
    (effectOf i s).code ∈ [Code.length, .insufficient, .eraseRange] ∧ (effectOf i s).writes = .nothing ∨
    (effectOf i s).code ∈ [Code.ok, .noninv, .singular] ∧ (effectOf i s).writes.dest = fullDest i := by
  have hsolve (n : Nat) (ps vs : List Byte) (pol : Byte) :
      (solveOutcome n ps vs pol).code ∈ [Code.ok, .noninv, .singular] ∧
        (solveOutcome n ps vs pol).writes.dest = .bytes .out n := by
    rcases solveOutcome_cases n ps vs pol with ⟨e, -⟩ | ⟨e, -⟩ <;> simp [e, Writes.dest]
  cases i with
  | nop => exact .inr ⟨List.mem_cons_self, rfl⟩
  | mul a b pol => exact .inr ⟨List.mem_cons_self, rfl⟩
  | inv a pol =>
    refine .inr ⟨?_, rfl⟩
    cases h : invOk a pol <;> simp [effectOf, invEffect, h]
  | eval x L pol =>
    rcases evalEffect_cases x L pol s with ⟨-, e⟩ | ⟨-, e⟩ <;> simp [effectOf, e, Writes.dest, fullDest]
  | encode L N pol =>
    rcases encodeEffect_cases L N pol s with ⟨-, e⟩ | ⟨-, e⟩ <;> simp [effectOf, e, Writes.dest, fullDest]
  | solve n pol => exact .inr (hsolve n _ _ pol)
  | decode L N pol =>
    rcases decodeEffect_cases L N pol s with ⟨-, e⟩ | ⟨-, -, e⟩ | ⟨-, -, -, e⟩ | ⟨-, -, -, e⟩
    · simp [effectOf, e]
    · simp [effectOf, e]
    · simp [effectOf, e]
    · rw [effectOf, e]
      exact .inr (hsolve L _ _ pol)

/-- The destination set says which kind of writes a command makes, and how many bytes. -/
theorem Writes.shape_of_dest {x : Writes} {d : Dest} (h : x.dest = d) :
    (d = .nothing → x = .nothing) ∧ (d = .result → ∃ v, x = .result v) ∧
      (∀ b n, d = .bytes b n → ∃ vs, vs.length = n ∧ x = .buffer b vs) := by
  subst h
  cases x <;> simp [Writes.dest]

theorem Code.not_failed_of_computed {c : Code} (h : c ∈ [Code.ok, .noninv, .singular]) :
    c ∉ [Code.illegal, .length, .insufficient, .eraseRange] := by
  cases c <;> simp at h ⊢

/-- Settles O51: `effectOf_code_and_writes` for a command, and an ILLEGAL word completes with code 1 and no writes. -/
theorem failedCommandsWriteNothing : Obligations.FailedCommandsWriteNothing := by
  intro w s
  cases hd : decode w with
  | illegal why =>
    rw [dest, execute_of_illegal hd]
    exact ⟨fun _ => ⟨rfl, rfl⟩, fun hcode => absurd hcode (by decide)⟩
  | cmd i =>
    rw [dest, execute_of_cmd hd]
    obtain ⟨hcode, hnone⟩ | ⟨hcode, hfull⟩ := effectOf_code_and_writes i s
    · exact ⟨fun _ => ⟨hnone, congrArg Writes.dest hnone⟩,
        fun hcomputed => absurd (List.mem_cons_of_mem _ hcode) (Code.not_failed_of_computed hcomputed)⟩
    · refine ⟨fun hfailed => absurd hfailed (Code.not_failed_of_computed hcode), ?_⟩
      rintro - j hj
      obtain rfl : i = j := Decoded.cmd.inj hj
      exact ⟨hfull, Writes.shape_of_dest hfull⟩

end Sys2Proof.Machine
end

section
/-!
PROOFS of the family 40_field_arithmetic: a byte is the residue of its polynomial modulo `P_pol`, and `gf_mul` and
`gf_inv` are the product and the power 254 of residues (spec/40_field_arithmetic.md R113, R116), from which the laws (R114), the
inverse check (R118) and the commands MUL and INV (R119, R120) follow.
-/
namespace Sys2Proof

/-! ### The words of format S (R82) -/

/-- The word as the statements write it, each field shifted to its place. -/
theorem shifted_fields_eq_formatS (op : BitVec 4) (b pol a : Byte) :
    (op.setWidth 32 <<< 28) ||| (b.setWidth 32 <<< 16) ||| (pol.setWidth 32 <<< 8) ||| a.setWidth 32 =
      formatS op b pol a := by
  grind [formatS]

section
variable (op : BitVec 4) (b pol a : Byte)

@[simp] theorem opField_formatS : opField (formatS op b pol a) = op := by grind [opField, formatS]

@[simp] theorem rsv4Field_formatS : rsv4Field (formatS op b pol a) = 0 := by grind [rsv4Field, formatS]

@[simp] theorem bField_formatS : bField (formatS op b pol a) = b := by grind [bField, formatS]

@[simp] theorem polField_formatS : polField (formatS op b pol a) = pol := by grind [polField, formatS]

@[simp] theorem aField_formatS : aField (formatS op b pol a) = a := by grind [aField, formatS]

@[simp] theorem extractLsb'_formatS_zeroB : (formatS op 0#8 pol a).extractLsb' 16 12 = 0 := by grind [formatS]

end

theorem decode_formatS_mul (a b pol : Byte) : decode (formatS 1 b pol a) = .cmd (.mul a b pol) := by
  simp [decode, guardReserved]

theorem decode_formatS_inv (a pol : Byte) : decode (formatS 2 0 pol a) = .cmd (.inv a pol) := by
  simp [decode, guardReserved]

end Sys2Proof

namespace Sys2Proof.Machine

open Polynomial

/-! ### Bytes as polynomials over GF(2) (R10) -/

theorem coeff_toPoly (v : Byte) (i : Nat) : (toPoly v).coeff i = if v.getLsbD i then 1 else 0 := by
  have hterm (j : Nat) : (if v.getLsbD j then (X : (ZMod 2)[X]) ^ j else 0).coeff i =
      if i = j then (if v.getLsbD i then 1 else 0) else 0 := by
    by_cases h : i = j
    · subst h; split <;> simp
    · split <;> simp [h, coeff_X_pow]
  simp only [toPoly, finsetSum_coeff, hterm, Finset.sum_ite_eq, Finset.mem_range, ite_eq_left_iff]
  intro hi
  rw [BitVec.getLsbD_of_ge v i (by omega)]
  rfl

theorem toPoly_injective : Function.Injective toPoly := by
  intro v w h
  refine BitVec.eq_of_getLsbD_eq fun i _ => ?_
  have hi := congrArg (coeff · i) h
  simp only [coeff_toPoly] at hi
  cases hv : v.getLsbD i <;> cases hw : w.getLsbD i <;> simp [hv, hw] at hi ⊢

@[simp] theorem toPoly_zero : toPoly 0#8 = 0 := by simp [toPoly]

@[simp] theorem toPoly_one : toPoly 1#8 = 1 := by
  ext i
  rw [coeff_toPoly, coeff_one]
  cases i <;> simp [BitVec.getLsbD_one]

theorem toPoly_gfAdd (v w : Byte) : toPoly (gfAdd v w) = toPoly v + toPoly w := by
  ext i
  rw [coeff_add, coeff_toPoly, coeff_toPoly, coeff_toPoly, gfAdd, BitVec.getLsbD_xor]
  cases v.getLsbD i <;> cases w.getLsbD i <;> decide

theorem degree_toPoly_lt (v : Byte) : (toPoly v).degree < 8 := by
  refine (degree_lt_iff_coeff_zero _ 8).2 fun i hi => ?_
  rw [coeff_toPoly, BitVec.getLsbD_of_ge v i hi]
  rfl

theorem exists_toPoly_eq {q : (ZMod 2)[X]} (h : q.degree < 8) : ∃ v, toPoly v = q := by
  refine ⟨BitVec.ofFnLE fun i : Fin 8 => decide (q.coeff i = 1), ?_⟩
  ext i
  rw [coeff_toPoly, BitVec.getLsbD_ofFnLE]
  by_cases hi : i < 8
  · have hbit (c : ZMod 2) : (if decide (c = 1) then 1 else 0) = c := by
      revert c
      decide
    simp only [hi, dif_pos, hbit]
  · rw [(degree_lt_iff_coeff_zero _ 8).1 h i (by omega)]
    simp [hi]

theorem exists_toPoly_eq_of_monic {q : (ZMod 2)[X]} (hq : q.Monic) (hlt : q.natDegree < 8) :
    ∃ v : Byte, v ≠ 0 ∧ toPoly v = q := by
  obtain ⟨v, hv⟩ := exists_toPoly_eq ((natDegree_lt_iff_degree_lt hq.ne_zero).1 hlt)
  refine ⟨v, ?_, hv⟩
  rintro rfl
  exact hq.ne_zero (hv.symm.trans toPoly_zero)

theorem toNat_lt_of_natDegree_toPoly_lt {v : Byte} {n : Nat} (h : (toPoly v).natDegree < n) : v.toNat < 2 ^ n := by
  refine Nat.lt_pow_two_of_testBit _ fun i hi => ?_
  have hcoeff := coeff_eq_zero_of_natDegree_lt (h.trans_le hi)
  rw [coeff_toPoly] at hcoeff
  simpa [BitVec.getLsbD] using hcoeff

/-- Shifting left multiplies by `x`; the bit shifted out is the coefficient of `x^8`. -/
theorem X_mul_toPoly (v : Byte) : X * toPoly v = toPoly (v <<< 1) + if v.getLsbD 7 then X ^ 8 else 0 := by
  ext i
  rw [coeff_add, coeff_toPoly, BitVec.getLsbD_shiftLeft]
  cases i with
  | zero => cases v.getLsbD 7 <;> simp
  | succ i =>
    rw [coeff_X_mul, coeff_toPoly, Nat.add_sub_cancel]
    obtain hlt | rfl | hgt := Nat.lt_trichotomy i 7
    · have hne : i + 1 ≠ 8 := by omega
      cases v.getLsbD 7 <;> simp [show i + 1 < 8 by omega, hne, coeff_X_pow]
    · cases v.getLsbD 7 <;> simp
    · rw [BitVec.getLsbD_of_ge v i hgt]
      have hne : i + 1 ≠ 8 := by omega
      cases v.getLsbD 7 <;> simp [hne, coeff_X_pow]

/-- Shifting right divides by `x`; the bit shifted out is the remainder. -/
theorem toPoly_eq_X_mul_add (v : Byte) :
    toPoly v = X * toPoly (v >>> 1) + if v.getLsbD 0 then 1 else 0 := by
  ext i
  rw [coeff_add, coeff_toPoly]
  cases i with
  | zero => cases v.getLsbD 0 <;> simp
  | succ i =>
    rw [coeff_X_mul, coeff_toPoly, BitVec.getLsbD_ushiftRight, add_comm 1 i]
    cases v.getLsbD 0 <;> simp [coeff_one]

theorem monic_redPoly (pol : Byte) : (redPoly pol).Monic := monic_X_pow_add (degree_toPoly_lt pol)

theorem degree_redPoly (pol : Byte) : (redPoly pol).degree = 8 := by
  rw [redPoly, degree_add_eq_left_of_degree_lt] <;> rw [degree_X_pow]
  · rfl
  · exact degree_toPoly_lt pol

/-! ### Bytes as residues modulo `P_pol` (R113) -/

/-- The residue class of a byte's polynomial modulo `P_pol`. -/
noncomputable def residue (pol v : Byte) : AdjoinRoot (redPoly pol) := AdjoinRoot.mk (redPoly pol) (toPoly v)

/-- A byte is the remainder of every polynomial in its class. -/
theorem toPoly_eq_modByMonic {pol v : Byte} {q : (ZMod 2)[X]} (h : residue pol v = AdjoinRoot.mk (redPoly pol) q) :
    toPoly v = q.modByMonic (redPoly pol) := by
  rw [← modByMonic_eq_of_dvd_sub (monic_redPoly pol) (AdjoinRoot.mk_eq_mk.1 h),
    (modByMonic_eq_self_iff (monic_redPoly pol)).2 ((degree_toPoly_lt v).trans_eq (degree_redPoly pol).symm)]

theorem residue_injective (pol : Byte) : Function.Injective (residue pol) := fun _ w h =>
  toPoly_injective ((toPoly_eq_modByMonic h).trans (toPoly_eq_modByMonic (v := w) rfl).symm)

theorem residue_surjective (pol : Byte) : Function.Surjective (residue pol) := by
  intro r
  obtain ⟨q, rfl⟩ := AdjoinRoot.mk_surjective r
  have hdeg : (q.modByMonic (redPoly pol)).degree < 8 :=
    (degree_modByMonic_lt q (monic_redPoly pol)).trans_eq (degree_redPoly pol)
  obtain ⟨v, hv⟩ := exists_toPoly_eq hdeg
  refine ⟨v, ?_⟩
  rw [residue, hv]
  exact AdjoinRoot.mk_leftInverse (monic_redPoly pol) (AdjoinRoot.mk _ q)

section
variable (pol : Byte)

@[simp] theorem residue_zero : residue pol 0#8 = 0 := by simp [residue]

@[simp] theorem residue_one : residue pol 1#8 = 1 := by simp [residue]

@[simp] theorem residue_gfAdd (a b : Byte) : residue pol (gfAdd a b) = residue pol a + residue pol b := by
  simp [residue, toPoly_gfAdd]

@[simp] theorem residue_eq_zero_iff (a : Byte) : residue pol a = 0 ↔ a = 0#8 := by
  rw [← residue_zero pol, (residue_injective pol).eq_iff]

/-- One shift of the multiplier (R112) is multiplication by `x` modulo `P_pol`: reducing adds a multiple of `P_pol`. -/
theorem residue_gfShift (a : Byte) :
    residue pol (gfShift a pol) = AdjoinRoot.root (redPoly pol) * residue pol a := by
  rw [residue, residue, ← AdjoinRoot.mk_X, ← map_mul, X_mul_toPoly, AdjoinRoot.mk_eq_mk]
  cases h : a.getLsbD 7 with
  | false =>
    rw [gfShift, h]
    simp
  | true =>
    refine dvd_of_eq ?_
    have hshift : toPoly (gfShift a pol) = toPoly (a <<< 1) + toPoly pol := by
      rw [← toPoly_gfAdd, gfAdd, gfShift, if_pos h]
    rw [hshift, if_pos rfl, add_sub_add_left_eq_sub, CharTwo.sub_eq_add, add_comm, redPoly]

/-- The loop's invariant (R113), read from its end: the running product plus the product of what is left. -/
theorem residue_gfMulLoop (fuel : Nat) (p a b : Byte) (h : b.toNat < 2 ^ fuel) :
    residue pol (gfMulLoop pol fuel p a b) = residue pol p + residue pol a * residue pol b := by
  induction fuel generalizing p a b with
  | zero =>
    obtain rfl : b = 0#8 := BitVec.eq_of_toNat_eq (Nat.lt_one_iff.1 h)
    simp
  | succ fuel ih =>
    have hb : residue pol b =
        AdjoinRoot.root (redPoly pol) * residue pol (b >>> 1) + if b.getLsbD 0 then 1 else 0 := by
      rw [residue, toPoly_eq_X_mul_add, map_add, map_mul, AdjoinRoot.mk_X, residue, apply_ite (AdjoinRoot.mk _),
        map_one, map_zero]
    have hshift : (b >>> 1).toNat < 2 ^ fuel := by
      rw [BitVec.toNat_ushiftRight, Nat.shiftRight_eq_div_pow]
      omega
    rw [gfMulLoop_succ, ih _ _ _ hshift, residue_gfShift, hb]
    cases b.getLsbD 0
    · simp; ring
    · simp; ring

@[simp] theorem residue_gfMul (a b : Byte) : residue pol (gfMul a b pol) = residue pol a * residue pol b := by
  simpa [gfMul] using residue_gfMulLoop pol 8 0 a b b.isLt

theorem residue_gfInvLoop (count : Nat) (s r : Byte) :
    residue pol (gfInvLoop pol count s r) = residue pol r * residue pol s ^ (2 ^ (count + 1) - 2) := by
  induction count generalizing s r with
  | zero => simp [gfInvLoop]
  | succ count ih =>
    have hexp : 2 ^ (count + 1 + 1) - 2 = 2 + 2 * (2 ^ (count + 1) - 2) := by
      have := Nat.one_le_two_pow (n := count)
      omega
    rw [gfInvLoop, ih, residue_gfMul, residue_gfMul, hexp]
    ring

@[simp] theorem residue_gfInv (a : Byte) : residue pol (gfInv a pol) = residue pol a ^ 254 := by
  simpa [gfInv] using residue_gfInvLoop pol 7 a 1

end

/-- Settles O29: the residue of `gf_mul` is the product of the residues, and a byte is the remainder of its class. -/
theorem gfMulIsProductModuloPol : Obligations.GfMulIsProductModuloPol := by
  intro a b pol
  refine toPoly_eq_modByMonic ?_
  rw [residue_gfMul, map_mul]
  rfl

/-! ### The laws of `gf_mul` under every `pol` (R114) -/

theorem gfMul_comm (a b pol : Byte) : gfMul a b pol = gfMul b a pol :=
  residue_injective pol (by simp [mul_comm])

theorem gfMul_assoc (a b c pol : Byte) : gfMul (gfMul a b pol) c pol = gfMul a (gfMul b c pol) pol :=
  residue_injective pol (by simp [mul_assoc])

theorem gfMul_gfAdd (a b c pol : Byte) : gfMul a (gfAdd b c) pol = gfAdd (gfMul a b pol) (gfMul a c pol) :=
  residue_injective pol (by simp [mul_add])

@[simp] theorem gfMul_one (a pol : Byte) : gfMul a 1#8 pol = a := residue_injective pol (by simp)

@[simp] theorem gfMul_zero (a pol : Byte) : gfMul a 0#8 pol = 0#8 := residue_injective pol (by simp)

@[simp] theorem zero_gfMul (b pol : Byte) : gfMul 0#8 b pol = 0#8 := residue_injective pol (by simp)

/-- Under every `pol` an element has at most one inverse. -/
theorem eq_of_gfMul_eq_one {a y z pol : Byte} (hy : gfMul a y pol = 1) (hz : gfMul a z pol = 1) : y = z := by
  calc y = gfMul y (gfMul a z pol) pol := by rw [hz]; exact (gfMul_one y pol).symm
    _ = gfMul (gfMul a y pol) z pol := by rw [← gfMul_assoc, gfMul_comm y]
    _ = z := by rw [hy, gfMul_comm]; exact gfMul_one z pol

@[simp] theorem gfInv_zero (pol : Byte) : gfInv 0#8 pol = 0#8 := residue_injective pol (by simp)

@[simp] theorem gfInv_one (pol : Byte) : gfInv 1#8 pol = 1#8 := residue_injective pol (by simp)

/-! ### A field when `P_pol` is irreducible, and zero divisors when it is not (R114, R118) -/

section
variable {pol : Byte} (h : irreduciblePol pol)
include h

theorem eq_zero_or_eq_zero_of_gfMul_eq_zero {a b : Byte} (hab : gfMul a b pol = 0) : a = 0 ∨ b = 0 := by
  have : Fact (Irreducible (redPoly pol)) := ⟨h⟩
  have hprod : residue pol a * residue pol b = 0 := by rw [← residue_gfMul, hab]; exact residue_zero pol
  simpa using mul_eq_zero.1 hprod

/-- The residues are a field of 256 elements, so the nonzero ones have order dividing 255. -/
theorem residue_pow_255 {a : Byte} (ha : a ≠ 0) : residue pol a ^ 255 = 1 := by
  have : Fact (Irreducible (redPoly pol)) := ⟨h⟩
  have hbij : Function.Bijective (residue pol ∘ BitVec.equivFin.symm) :=
    (Function.Bijective.of_comp_iff _ BitVec.equivFin.symm.bijective).2 ⟨residue_injective pol, residue_surjective pol⟩
  let _ : Fintype (AdjoinRoot (redPoly pol)) := Fintype.ofBijective _ hbij
  have hcard : Fintype.card (AdjoinRoot (redPoly pol)) = 2 ^ 8 := by
    rw [← Fintype.card_of_bijective hbij, Fintype.card_fin]
  have hne : residue pol a ≠ 0 := mt (residue_eq_zero_iff pol a).1 ha
  simpa [hcard] using FiniteField.pow_card_sub_one_eq_one _ hne

theorem gfMul_gfInv {a : Byte} (ha : a ≠ 0) : gfMul a (gfInv a pol) pol = 1 := by
  refine residue_injective pol ?_
  rw [residue_gfMul, residue_gfInv, ← pow_succ', residue_pow_255 h ha]
  exact (residue_one pol).symm

theorem gfMul_eq_one_iff {a y : Byte} (ha : a ≠ 0) : gfMul a y pol = 1 ↔ y = gfInv a pol :=
  ⟨fun hy => eq_of_gfMul_eq_one hy (gfMul_gfInv h ha), fun hy => hy ▸ gfMul_gfInv h ha⟩

theorem gfInv_gfInv {a : Byte} (ha : a ≠ 0) : gfInv (gfInv a pol) pol = a := by
  have hmul : gfMul (gfInv a pol) a pol = 1 := (gfMul_comm _ _ _).trans (gfMul_gfInv h ha)
  have hne : gfInv a pol ≠ 0 := by
    intro h0
    rw [h0] at hmul
    exact absurd ((zero_gfMul a pol).symm.trans hmul) (by decide)
  exact ((gfMul_eq_one_iff h hne).1 hmul).symm

end

/-- The factors of a reducible `P_pol` are bytes, one of them of degree at most 4, and they multiply to 0. -/
theorem exists_zero_divisors_of_reducible {pol : Byte} (h : ¬ irreduciblePol pol) :
    ∃ a b : Byte, a ≠ 0 ∧ b ≠ 0 ∧ b.toNat < 2 ^ 5 ∧ gfMul a b pol = 0 := by
  have hnat : (redPoly pol).natDegree = 8 := natDegree_eq_of_degree_eq_some (degree_redPoly pol)
  have hone : redPoly pol ≠ 1 := by
    intro h1
    rw [h1, natDegree_one] at hnat
    omega
  rw [irreduciblePol, (monic_redPoly pol).irreducible_iff_natDegree', hnat] at h
  push Not at h
  obtain ⟨f, g, hf, hg, hfg, hdeg⟩ := h hone
  have hsum : f.natDegree + g.natDegree = 8 := by rw [← hf.natDegree_mul hg, hfg, hnat]
  obtain ⟨hg0, hg4⟩ := Finset.mem_Ioc.1 hdeg
  obtain ⟨a, ha, rfl⟩ := exists_toPoly_eq_of_monic hf (by omega)
  obtain ⟨b, hb, rfl⟩ := exists_toPoly_eq_of_monic hg (by omega)
  refine ⟨a, b, ha, hb, toNat_lt_of_natDegree_toPoly_lt (by omega), (residue_eq_zero_iff pol _).1 ?_⟩
  rw [residue_gfMul, residue, residue, ← map_mul, hfg, AdjoinRoot.mk_self]

/-- `P_pol` is irreducible as soon as the bytes of degree at most 4 have inverses: a proper factor among them has none. -/
theorem irreduciblePol_of_inverses {pol : Byte}
    (h : ∀ b : Byte, b ≠ 0 → b.toNat < 2 ^ 5 → ∃ c, gfMul b c pol = 1) : irreduciblePol pol := by
  by_contra hred
  obtain ⟨a, b, ha, hb, hlt, hab⟩ := exists_zero_divisors_of_reducible hred
  obtain ⟨c, hc⟩ := h b hb hlt
  refine ha ?_
  calc a = gfMul a (gfMul b c pol) pol := by rw [hc]; exact (gfMul_one a pol).symm
    _ = gfMul (gfMul a b pol) c pol := (gfMul_assoc a b c pol).symm
    _ = 0 := by rw [hab]; exact zero_gfMul c pol

/-- Settles O30: the ring laws of the residues, and a field or zero divisors by the irreducibility of `P_pol`. -/
theorem gfMulLaws : Obligations.GfMulLaws := by
  refine ⟨gfMul_comm, gfMul_assoc, gfMul_gfAdd, fun a pol => ⟨gfMul_one a pol, gfMul_zero a pol⟩,
    fun _ h _ _ => eq_zero_or_eq_zero_of_gfMul_eq_zero h, fun _ h _ ha => ⟨_, gfMul_gfInv h ha⟩,
    fun _ h => ?_, by decide⟩
  obtain ⟨a, b, ha, hb, -, hab⟩ := exists_zero_divisors_of_reducible h
  exact ⟨a, b, ha, hb, hab⟩

/-- Settles O31: the residue of `gf_inv` is the power 254 of the residue. -/
theorem gfInvIsPower254 : Obligations.GfInvIsPower254 := by
  refine ⟨fun a pol => toPoly_eq_modByMonic ?_, fun pol => ⟨gfInv_zero pol, gfInv_one pol⟩⟩
  rw [residue_gfInv, map_pow]
  rfl

/-! ### The inverse check (R117, R118) -/

theorem invOk_eq_true_iff (a pol : Byte) : invOk a pol = true ↔ gfMul a (gfInv a pol) pol = 1 := by simp [invOk]

@[simp] theorem invOk_zero (pol : Byte) : invOk 0#8 pol = false := by simp [invOk]

theorem invOk_eq_false_iff {pol : Byte} (h : irreduciblePol pol) (a : Byte) : invOk a pol = false ↔ a = 0 := by
  constructor
  · intro hfail
    by_contra ha
    exact Bool.false_ne_true (hfail.symm.trans ((invOk_eq_true_iff a pol).2 (gfMul_gfInv h ha)))
  · rintro rfl
    exact invOk_zero pol

/-- What `irreduciblePol_of_inverses` asks, checked for the two polynomials of R118, 0x1D and 0x1B. -/
theorem invOk_of_degree_le_four :
    ∀ b : Byte, b ≠ 0 → b.toNat < 2 ^ 5 → invOk b 0x1D = true ∧ invOk b 0x1B = true := by
  decide +kernel

theorem irreduciblePol_1D : irreduciblePol 0x1D := irreduciblePol_of_inverses fun b hb hlt =>
  ⟨_, (invOk_eq_true_iff b 0x1D).1 (invOk_of_degree_le_four b hb hlt).1⟩

theorem irreduciblePol_1B : irreduciblePol 0x1B := irreduciblePol_of_inverses fun b hb hlt =>
  ⟨_, (invOk_eq_true_iff b 0x1B).1 (invOk_of_degree_le_four b hb hlt).2⟩

/-- Settles O32: under an irreducible `P_pol` only 0 fails the check, and 0x1D and 0x1B are irreducible. -/
theorem inverseCheckConsequences : Obligations.InverseCheckConsequences := by
  refine ⟨invOk_zero, fun pol h a ha => ⟨?_, fun y => gfMul_eq_one_iff h ha⟩, by decide, fun a => ?_⟩
  · exact (invOk_eq_true_iff a pol).2 (gfMul_gfInv h ha)
  · exact ⟨invOk_eq_false_iff irreduciblePol_1D a, invOk_eq_false_iff irreduciblePol_1B a⟩

/-! ### The commands MUL and INV (R119, R120) -/

/-- A command whose one write is RESULT leaves everything else as it was. -/
theorem exec_completesWithResult {i : Instr} {s : State} {c : Code} {v : Byte} (h : effectOf i s = ⟨c, .result v⟩) :
    ∃ t, exec i s = .next t ∧ s.completesWithResult t c v := by
  have hcompleted : s.completedFrom (s.complete ⟨c, .result v⟩) c := ⟨rfl, rfl, rfl, rfl⟩
  have houtside : s.sameOutside (s.complete ⟨c, .result v⟩) := ⟨rfl, rfl, rfl, rfl, rfl, rfl⟩
  refine ⟨s.complete ⟨c, .result v⟩, by rw [exec_eq_complete, h], hcompleted, houtside, fun b k => ?_, rfl⟩
  exact State.readByte_complete_result s c v b k

/-- A word with a reserved bit of its row set is ILLEGAL (R87). -/
theorem illegalWord_of_reserved {w : Word} (j : Instr) (hop : opField w = j.opcode)
    (hne : maskedBelowOp j.opcode w ≠ 0) : illegalWord w :=
  illegalWord_of_not_cmd fun _ hi => hne ((and_mask_eq_matchBits_iff w j).1 (row_of_decode hi hop)).2

/-- Under `pol = 0` the loop is the carry-less product, kept to 8 bits (`P_0 = x^8`). -/
theorem gfMulLoop_zero_pol (fuel : Nat) (p a b : Byte) : gfMulLoop 0 fuel p a b =
    (List.range fuel).foldl (fun q i => if b.getLsbD i then q ^^^ (a <<< i) else q) p := by
  induction fuel generalizing p a b with
  | zero => rfl
  | succ fuel ih =>
    have hshift : gfShift a 0 = a <<< 1 := by simp [gfShift]
    have hbit (i : Nat) : (b >>> 1).getLsbD i = b.getLsbD (i + 1) := by
      rw [BitVec.getLsbD_ushiftRight, Nat.add_comm]
    have hterm (i : Nat) : a <<< 1 <<< i = a <<< (i + 1) := by rw [Nat.add_comm, BitVec.shiftLeft_add]
    rw [gfMulLoop_succ, ih, hshift, List.range_succ_eq_map, List.foldl_cons, List.foldl_map]
    simp only [hbit, hterm, gfAdd, BitVec.shiftLeft_zero]

/-- Settles O35: MUL completes with its one write, and under `pol = 0` the loop is the carry-less product. -/
theorem mulWritesProduct : Obligations.MulWritesProduct := by
  refine ⟨fun a b pol s => exec_completesWithResult rfl,
    fun a b pol => ⟨zero_gfMul b pol, gfMul_zero a pol, gfMul_one a pol⟩, fun a b => gfMulLoop_zero_pol 8 0 a b,
    fun a b pol => ?_, fun w hop hne => illegalWord_of_reserved (.mul 0 0 0) hop hne, by decide⟩
  exact (congrArg decode (shifted_fields_eq_formatS 1 b pol a)).trans (decode_formatS_mul a b pol)

theorem invEffect_eq (a pol : Byte) :
    invEffect a pol = ⟨if gfMul a (gfInv a pol) pol = 1 then .ok else .noninv, .result (gfInv a pol)⟩ := by
  simp only [invEffect, invOk_eq_true_iff]

/-- Settles O36: INV completes with its one write and the code of the check, which is O32's under an irreducible `P_pol`. -/
theorem invWritesInverseAndReports : Obligations.InvWritesInverseAndReports := by
  refine ⟨fun a pol s => exec_completesWithResult (invEffect_eq a pol), fun pol => ?_, fun a pol ha hfail h => ?_,
    fun a pol h ha => gfInv_gfInv h ha, fun a pol => ?_,
    fun w hop hne => illegalWord_of_reserved (.inv 0 0) hop hne, by decide⟩
  · exact ⟨gfInv_zero pol, invOk_zero pol, gfInv_one pol, by simp [invOk]⟩
  · exact ha ((invOk_eq_false_iff h a).1 hfail)
  · refine (congrArg decode ?_).trans (decode_formatS_inv a pol)
    exact shifted_fields_eq_formatS 2 0 pol a

end Sys2Proof.Machine
end

section
/-!
PROOFS of the family 41_polynomial_evaluation: Horner's recurrence, read in the residues modulo `P_pol`, is the sum of
R141; and what the commands EVAL and ENCODE write (spec/41_polynomial_evaluation.md R141 to R143).
-/
namespace Sys2Proof

/-! ### The words of EVAL (format S, R82) and ENCODE (format V, R83) -/

theorem decode_formatS_eval (x b pol : Byte) : decode (formatS 3 b pol x) = .cmd (.eval x b.toNat pol) := by
  simp [decode, guardReserved]

/-- The word as the statements write it, each field shifted to its place. -/
theorem shifted_fields_eq_formatV (op : BitVec 4) (n : BitVec 9) (pol l : Byte) :
    (op.setWidth 32 <<< 28) ||| (n.setWidth 32 <<< 16) ||| (pol.setWidth 32 <<< 8) ||| l.setWidth 32 =
      formatV op n pol l := by
  grind [formatV]

section
variable (op : BitVec 4) (n : BitVec 9) (pol l : Byte)

@[simp] theorem opField_formatV : opField (formatV op n pol l) = op := by grind [opField, formatV]

@[simp] theorem rsv3Field_formatV : rsv3Field (formatV op n pol l) = 0 := by grind [rsv3Field, formatV]

@[simp] theorem nField_formatV : nField (formatV op n pol l) = n := by grind [nField, formatV]

@[simp] theorem polField_formatV : polField (formatV op n pol l) = pol := by grind [polField, formatV]

@[simp] theorem aField_formatV : aField (formatV op n pol l) = l := by grind [aField, formatV]

end

theorem decode_formatV_encode (n : BitVec 9) (l pol : Byte) :
    decode (formatV 4 n pol l) = .cmd (.encode l.toNat n.toNat pol) := by
  simp [decode, guardReserved]

end Sys2Proof

namespace Sys2Proof.Machine

/-! ### Addition is XOR (R111) -/

@[simp] theorem zero_gfAdd (a : Byte) : gfAdd 0#8 a = a := BitVec.zero_xor

theorem gfAdd_comm (a b : Byte) : gfAdd a b = gfAdd b a := BitVec.xor_comm a b

theorem gfAdd_assoc (a b c : Byte) : gfAdd (gfAdd a b) c = gfAdd a (gfAdd b c) := BitVec.xor_assoc a b c

/-! ### The value of a message at a point (R140, R141) -/

section
variable (x pol : Byte)

@[simp] theorem horner_nil : horner [] x pol = 0#8 := rfl

/-- Horner's recurrence also where the rest of the message is empty, and so adds 0. -/
theorem horner_cons_eq (c : Byte) (ms : List Byte) :
    horner (c :: ms) x pol = gfAdd (gfMul (horner ms x pol) x pol) c := by
  cases ms with
  | nil => simp
  | cons d ms => exact horner_cons c d ms x pol

/-- In the residues modulo `P_pol` Horner's value is `Σ MSG[k]·x^k`. -/
theorem residue_horner (ms : List Byte) : residue pol (horner ms x pol) =
    ∑ k ∈ Finset.range ms.length, residue pol (ms.getD k 0) * residue pol x ^ k := by
  induction ms with
  | nil => simp
  | cons c ms ih =>
    have hshift : residue pol (horner ms x pol) * residue pol x =
        ∑ k ∈ Finset.range ms.length, residue pol ((c :: ms).getD (k + 1) 0) * residue pol x ^ (k + 1) := by
      simp only [ih, Finset.sum_mul, List.getD_cons_succ, pow_succ, mul_assoc]
    rw [horner_cons_eq, residue_gfAdd, residue_gfMul, hshift, List.length_cons, Finset.sum_range_succ',
      List.getD_cons_zero, pow_zero, mul_one]

theorem horner_cons_at_zero (c : Byte) (ms : List Byte) : horner (c :: ms) 0 pol = c := by
  simp [horner_cons_eq]

theorem horner_at_one (ms : List Byte) : horner ms 1 pol = ms.foldl gfAdd 0 := by
  have : Std.Commutative gfAdd := ⟨gfAdd_comm⟩
  have : Std.Associative gfAdd := ⟨gfAdd_assoc⟩
  rw [List.foldl_eq_foldr]
  induction ms with
  | nil => rfl
  | cons c ms ih =>
    calc horner (c :: ms) 1 pol = gfAdd (horner ms 1 pol) c := by simp [horner_cons_eq]
      _ = (c :: ms).foldr gfAdd 0 := by rw [ih, gfAdd_comm, List.foldr_cons]

end

/-- The particular values of R141: at `x = 0`, at `x = 1` and of one coefficient. -/
theorem horner_elements_particular (s : State) (x pol : Byte) {L : Nat} (hL : 1 ≤ L) :
    horner (s.elements .msg L) 0 pol = s.readByte .msg 0 ∧
      horner (s.elements .msg L) 1 pol = (s.elements .msg L).foldl gfAdd 0 ∧
      horner (s.elements .msg 1) x pol = s.readByte .msg 0 := by
  obtain ⟨n, rfl⟩ := Nat.exists_eq_add_of_le' hL
  refine ⟨?_, horner_at_one pol _, horner_single _ x pol⟩
  rw [State.elements, List.range_succ_eq_map, List.map_cons]
  exact horner_cons_at_zero pol _ _

/-- Settles O38: a byte is the remainder of its class, and Horner's value is in the class of the sum. -/
theorem hornerIsPolynomialValue : Obligations.HornerIsPolynomialValue := by
  intro s L x pol hL
  refine ⟨toPoly_eq_modByMonic ?_, horner_elements_particular s x pol hL⟩
  rw [residue_horner, State.elements_length, map_sum]
  refine Finset.sum_congr rfl fun k hk => ?_
  rw [State.elements_getD s .msg (Finset.mem_range.1 hk), map_mul, map_pow]
  rfl

/-! ### What a completion leaves unchanged (R94, R95) -/

theorem State.completedFrom_complete (s : State) (e : Effect) : s.completedFrom (s.complete e) e.code :=
  ⟨rfl, rfl, rfl, rfl⟩

theorem State.sameOutside_complete (s : State) (e : Effect) : s.sameOutside (s.complete e) := by
  simp [State.sameOutside]

section
variable {i : Instr} {s : State} {c : Code}

/-- A command that writes nothing leaves everything but STATUS and PHASE as it was. -/
theorem exec_completesWithout (h : effectOf i s = ⟨c, .nothing⟩) : ∃ t, exec i s = .next t ∧ s.completesWithout t c :=
  ⟨s.complete ⟨c, .nothing⟩, by rw [exec_eq_complete, h], s.completedFrom_complete _, s.sameOutside_complete _,
    State.readByte_complete_nothing s c, rfl⟩

/-- A command that writes the first `n` bytes of one buffer leaves everything else as it was. -/
theorem exec_completesWithBytes {b : Buf} {vs : List Byte} {n : Nat} {f : Nat → Byte}
    (h : effectOf i s = ⟨c, .buffer b vs⟩) (hlen : vs.length = n) (hf : ∀ k, k < n → vs.getD k 0 = f k) :
    ∃ t, exec i s = .next t ∧ s.completesWithBytes t c b n f := by
  subst hlen
  refine ⟨s.complete ⟨c, .buffer b vs⟩, by rw [exec_eq_complete, h], s.completedFrom_complete _,
    s.sameOutside_complete _, rfl, fun k hk => ?_, fun k hk => ?_,
    fun b' hb' k => State.readByte_complete_other s c vs k hb'⟩
  · rw [State.readByte_complete_self, if_pos hk, hf k hk]
  · rw [State.readByte_complete_self, if_neg (Nat.not_lt.2 hk)]

end

/-! ### The commands EVAL and ENCODE (R142, R143) -/

theorem evalEffect_of_pos (x pol : Byte) (s : State) {L : Nat} (hL : 1 ≤ L) :
    evalEffect x L pol s = ⟨.ok, .result (horner (s.elements .msg L) x pol)⟩ := by
  obtain ⟨h, -⟩ | ⟨-, h⟩ := evalEffect_cases x L pol s
  · omega
  · exact h

/-- Settles O37: EVAL completes with its one write, or with none when `L = 0`. -/
theorem evalWritesHornerValue : Obligations.EvalWritesHornerValue := by
  refine ⟨fun x L pol s hL => exec_completesWithResult (evalEffect_of_pos x pol s hL),
    fun x pol s => exec_completesWithout rfl, fun L x pol s => horner_elements_particular s x pol,
    fun x b pol => ?_, fun w hop hne => illegalWord_of_reserved (.eval 0 0 0) hop hne, by decide⟩
  exact (congrArg decode (shifted_fields_eq_formatS 3 b pol x)).trans (decode_formatS_eval x b pol)

/-- With legal lengths ENCODE completes with one symbol per point. -/
theorem exec_encode_symbols (pol : Byte) (s : State) {L N : Nat} (hL : 1 ≤ L) (hN : N ≤ 256) :
    ∃ t, exec (.encode L N pol) s = .next t ∧
      s.completesWithBytes t .ok .sym N fun i => horner (s.elements .msg L) (s.readByte .pts i) pol := by
  obtain ⟨h, -⟩ | ⟨-, h⟩ := encodeEffect_cases L N pol s
  · omega
  · refine exec_completesWithBytes h (by simp) fun k hk => ?_
    simp [State.elements, List.getD_eq_getElem?_getD, hk]

/-- With an illegal length ENCODE completes with code 2 and writes nothing. -/
theorem exec_encode_length (pol : Byte) (s : State) {L N : Nat} (hbad : L = 0 ∨ 256 < N) :
    ∃ t, exec (.encode L N pol) s = .next t ∧ s.completesWithout t .length := by
  obtain ⟨-, h⟩ | ⟨h, -⟩ := encodeEffect_cases L N pol s
  · exact exec_completesWithout h
  · omega

/-- Settles O39: ENCODE completes with the symbols in SYM, or with code 2 and no write. -/
theorem encodeWritesSymbols : Obligations.EncodeWritesSymbols := by
  refine ⟨fun L N pol s hL hN => exec_encode_symbols pol s hL hN, fun L N pol s hbad => exec_encode_length pol s hbad,
    fun n l pol => ?_, fun w hop hne => illegalWord_of_reserved (.encode 0 0 0) hop hne, by decide, by decide⟩
  exact (congrArg decode (shifted_fields_eq_formatV 4 n pol l)).trans (decode_formatV_encode n l pol)

end Sys2Proof.Machine
end

section
/-!
PROOFS of the family 42_linear_solver: what SOLVE writes (spec/42_linear_solver.md R165), and that the matrix after any
number of pivot steps holds the entries the rules give it, whether or not a pivot faults (R161 to R164).
-/
namespace Sys2Proof

theorem decode_formatS_solve (n pol : Byte) : decode (formatS 5 0 pol n) = .cmd (.solve n.toNat pol) := by
  simp [decode, guardReserved]

end Sys2Proof

namespace Sys2Proof.Machine

/-! ### The command SOLVE (R165) -/

/-- Settles O41: SOLVE's effect is the write of all its coefficients, under code 0 or 6 by the pivot-fault bit. -/
theorem solveWritesCoefficients : Obligations.SolveWritesCoefficients := by
  refine ⟨fun n pol s => exec_completesWithBytes rfl (gjSolve_length n _ _ pol) fun _ _ => rfl, fun n pol => ?_,
    fun w hop hne => illegalWord_of_reserved (.solve 0 0) hop hne, by decide, by decide⟩
  refine (congrArg decode ?_).trans (decode_formatS_solve n pol)
  exact shifted_fields_eq_formatS 5 0 pol n

/-! ### The augmented matrix (R161) -/

theorem powersFrom_getD_zero (p pol x : Byte) {n : Nat} (hn : 0 < n) : (powersFrom p pol n x).getD 0 0 = x := by
  cases n with
  | zero => omega
  | succ n => rfl

/-- Each power after the first is the one before it times `p`. -/
theorem powersFrom_getD_succ (p pol x : Byte) {n i : Nat} (hi : i + 1 < n) :
    (powersFrom p pol n x).getD (i + 1) 0 = gfMul ((powersFrom p pol n x).getD i 0) p pol := by
  induction n generalizing x i with
  | zero => omega
  | succ n ih =>
    rw [powersFrom, List.getD_cons_succ]
    cases i with
    | zero => rw [powersFrom_getD_zero _ _ _ (by omega), List.getD_cons_zero]
    | succ i => rw [ih _ (by omega), List.getD_cons_succ]

section
variable {n j : Nat} (ps vs : List Byte) (pol : Byte) (hj : j < n)
include hj

/-- The first `n` columns of row `j` are the powers of its point. -/
theorem vandermonde_entry {m : Nat} (hm : m < n) :
    (vandermonde n ps vs pol).entry j m = (powersFrom (ps.getD j 0) pol n 1).getD m 0 := by
  rw [WorkMatrix.entry, vandermonde_row ps vs pol hj, vandermondeRow, List.getD_append _ _ _ _ (by simpa using hm)]

/-- Column `n` holds the values. -/
theorem vandermonde_entry_value : (vandermonde n ps vs pol).entry j n = vs.getD j 0 := by
  rw [WorkMatrix.entry, vandermonde_row ps vs pol hj, vandermondeRow, List.getD_append_right _ _ _ _ (by simp)]
  simp

end

/-- Every row of the matrix reaches column `n`: the matrix is `n` by `n + 1`. -/
def WorkMatrix.augmented (w : WorkMatrix) (n : Nat) : Prop := ∀ j, j < n → (w.row j).length = n + 1

theorem vandermonde_augmented (n : Nat) (ps vs : List Byte) (pol : Byte) : (vandermonde n ps vs pol).augmented n := by
  intro j hj
  rw [vandermonde_row ps vs pol hj, vandermondeRow_length]

/-! ### One pivot step (R162) -/

section
variable {n i : Nat} (pol : Byte) {k : Work} (hw : k.w.augmented n) (hi : i < n)
include hw hi

/-- A pivot step, entry by entry. -/
theorem pivotStep_entry {j m : Nat} (hj : j < n) (hm : m ≤ n) : (pivotStep n pol k i).w.entry j m =
    if j = i then k.w.entry j m
    else gfAdd (k.w.entry j m)
      (gfMul (gfMul (k.w.entry j i) (gfInv (k.w.entry i i) pol) pol) (k.w.entry i m) pol) := by
  rw [WorkMatrix.entry, pivotStep_row pol k i hj, pivotRow]
  split
  · rfl
  · exact eliminateRow_getD _ _ _ _ (by rw [hw j hj]; omega) (by rw [hw i hi]; omega)

theorem pivotStep_augmented : (pivotStep n pol k i).w.augmented n := by
  intro j hj
  rw [pivotStep_row pol k i hj, pivotRow]
  split
  · exact hw j hj
  · rw [eliminateRow, List.length_zipWith, hw j hj, hw i hi, min_self]

end

/-- A pivot step adds its own fault to those before it (R164). -/
theorem pivotStep_pf_iff (n : Nat) (pol : Byte) (k : Work) (i : Nat) :
    (pivotStep n pol k i).pf = true ↔ k.pf = true ∨ invOk (k.w.entry i i) pol = false := by
  simp [pivotStep]

/-! ### The first `t` pivot steps (R162, R164) -/

/-- The work after the pivot steps `0 .. t-1`; `eliminate` takes `n` of them. -/
def pivotSteps (n : Nat) (pol : Byte) (k : Work) (t : Nat) : Work := (List.range t).foldl (pivotStep n pol) k

theorem eliminate_eq_pivotSteps (n : Nat) (pol : Byte) (k : Work) : eliminate n pol k = pivotSteps n pol k n := rfl

@[simp] theorem pivotSteps_zero (n : Nat) (pol : Byte) (k : Work) : pivotSteps n pol k 0 = k := rfl

theorem pivotSteps_succ (n : Nat) (pol : Byte) (k : Work) (t : Nat) :
    pivotSteps n pol k (t + 1) = pivotStep n pol (pivotSteps n pol k t) t := by
  simp [pivotSteps, List.range_succ]

theorem pivotSteps_augmented {n t : Nat} (pol : Byte) {k : Work} (hw : k.w.augmented n) (ht : t ≤ n) :
    (pivotSteps n pol k t).w.augmented n := by
  induction t with
  | zero => exact hw
  | succ t ih =>
    rw [pivotSteps_succ]
    exact pivotStep_augmented pol (ih (by omega)) ht

/-- The faults of the steps so far, each at the pivot as its step finds it. -/
theorem pivotSteps_pf_iff (n : Nat) (pol : Byte) (k : Work) (t : Nat) : (pivotSteps n pol k t).pf = true ↔
    k.pf = true ∨ ∃ i, i < t ∧ invOk ((pivotSteps n pol k i).w.entry i i) pol = false := by
  induction t with
  | zero => simp
  | succ t ih => rw [pivotSteps_succ, pivotStep_pf_iff, ih, Nat.exists_lt_succ_right, or_assoc]

/-! ### `gj_solve` from the matrices of its pivot steps (R163, R164) -/

theorem divideDiagonal_getD {n i : Nat} (pol : Byte) (w : WorkMatrix) (hi : i < n) :
    (divideDiagonal n pol w).getD i 0 = gfMul (w.entry i n) (gfInv (w.entry i i) pol) pol := by
  simp [divideDiagonal, List.getD_eq_getElem?_getD, hi]

theorem diagonalFaults_iff (n : Nat) (pol : Byte) (w : WorkMatrix) :
    diagonalFaults n pol w = true ↔ ∃ i, i < n ∧ invOk (w.entry i i) pol = false := by
  simp [diagonalFaults]

/-- The matrix of `gj_solve` after the pivot steps `0 .. t-1`. -/
def solverMatrix (n : Nat) (ps vs : List Byte) (pol : Byte) (t : Nat) : WorkMatrix :=
  (pivotSteps n pol ⟨vandermonde n ps vs pol, false⟩ t).w

theorem solverMatrix_augmented {n t : Nat} (ps vs : List Byte) (pol : Byte) (ht : t ≤ n) :
    (solverMatrix n ps vs pol t).augmented n :=
  pivotSteps_augmented pol (vandermonde_augmented n ps vs pol) ht

theorem solverMatrix_succ_entry {n i j m : Nat} (ps vs : List Byte) (pol : Byte) (hi : i < n) (hj : j < n)
    (hm : m ≤ n) : (solverMatrix n ps vs pol (i + 1)).entry j m =
      if j = i then (solverMatrix n ps vs pol i).entry j m
      else gfAdd ((solverMatrix n ps vs pol i).entry j m)
        (gfMul (gfMul ((solverMatrix n ps vs pol i).entry j i) (gfInv ((solverMatrix n ps vs pol i).entry i i) pol) pol)
          ((solverMatrix n ps vs pol i).entry i m) pol) := by
  rw [solverMatrix, pivotSteps_succ]
  exact pivotStep_entry pol (solverMatrix_augmented ps vs pol hi.le) hi hj hm

/-- The coefficients are the quotients of column `n` by the diagonal, whether or not a pivot faults (R163). -/
theorem gjSolve_getD {n i : Nat} (ps vs : List Byte) (pol : Byte) (hi : i < n) : (gjSolve n ps vs pol).1.getD i 0 =
    gfMul ((solverMatrix n ps vs pol n).entry i n) (gfInv ((solverMatrix n ps vs pol n).entry i i) pol) pol :=
  divideDiagonal_getD pol _ hi

/-- A diagonal element faults at its pivot step, or at the division. -/
theorem gjSolve_pf_iff (n : Nat) (ps vs : List Byte) (pol : Byte) : (gjSolve n ps vs pol).2 = true ↔
    ∃ i, i < n ∧ (invOk ((solverMatrix n ps vs pol i).entry i i) pol = false ∨
      invOk ((solverMatrix n ps vs pol n).entry i i) pol = false) := by
  rw [gjSolve, Bool.or_eq_true, diagonalFaults_iff, eliminate_eq_pivotSteps, pivotSteps_pf_iff]
  simp only [Bool.false_eq_true, false_or, and_or_left, exists_or]
  rfl

/-! ### Tables that follow the rules (R161, R162) -/

section
variable {n : Nat} {ps vs : List Byte} {pol : Byte} {W : Nat → Nat → Nat → Byte}
  (h0 : ∀ j, j < n → W 0 j 0 = 1 ∧ (∀ i, 1 ≤ i → i < n → W 0 j i = gfMul (W 0 j (i - 1)) (ps.getD j 0) pol) ∧
    W 0 j n = vs.getD j 0)
include h0

/-- R161 leaves no choice: a table that starts as it says starts with the entries of `vandermonde`. -/
theorem vandermonde_entry_of_rules {j m : Nat} (hj : j < n) (hm : m ≤ n) :
    (vandermonde n ps vs pol).entry j m = W 0 j m := by
  obtain ⟨hone, hpow, hval⟩ := h0 j hj
  obtain hlt | rfl := hm.lt_or_eq
  · rw [vandermonde_entry ps vs pol hj hlt]
    induction m with
    | zero => rw [powersFrom_getD_zero _ _ _ hlt, hone]
    | succ m ih =>
      rw [powersFrom_getD_succ _ _ _ hlt, ih (by omega) (by omega), hpow (m + 1) (by omega) hlt, Nat.add_sub_cancel]
  · rw [vandermonde_entry_value ps vs pol hj, hval]

/-- R162 leaves none either: every later matrix of the table is the solver's. -/
theorem solverMatrix_entry_of_rules
    (hstep : ∀ i j m, i < n → j < n → m ≤ n → W (i + 1) j m =
      if j = i then W i j m
      else gfAdd (W i j m) (gfMul (gfMul (W i j i) (gfInv (W i i i) pol) pol) (W i i m) pol))
    {t : Nat} (ht : t ≤ n) {j m : Nat} (hj : j < n) (hm : m ≤ n) :
    (solverMatrix n ps vs pol t).entry j m = W t j m := by
  induction t generalizing j m with
  | zero => exact vandermonde_entry_of_rules h0 hj hm
  | succ t ih =>
    have hle : t ≤ n := by omega
    rw [solverMatrix_succ_entry ps vs pol ht hj hm, hstep t j m ht hj hm, ih hle hj hm, ih hle hj hle,
      ih hle ht hle, ih hle ht hm]

end

/-- Settles O53: the table's entries are the solver's at every step, and the check under an irreducible `P_pol` is O32's. -/
theorem solverFollowsTheRules : Obligations.SolverFollowsTheRules := by
  refine ⟨fun n ps vs pol W _ _ _ h0 hstep => ?_, fun p pol h => invOk_eq_false_iff h p⟩
  have hentry {t j m : Nat} (ht : t ≤ n) (hj : j < n) (hm : m ≤ n) :
      (solverMatrix n ps vs pol t).entry j m = W t j m := solverMatrix_entry_of_rules h0 hstep ht hj hm
  refine ⟨gjSolve_length n ps vs pol, fun i hi => ?_, ?_⟩
  · rw [gjSolve_getD ps vs pol hi, hentry le_rfl hi le_rfl, hentry le_rfl hi hi.le]
  · rw [gjSolve_pf_iff]
    refine exists_congr fun i => and_congr_right fun hi => ?_
    rw [hentry hi.le hi hi.le, hentry le_rfl hi hi.le]

end Sys2Proof.Machine
end

section
/-!
PROOFS of the family 43_decoder: DECODE's checks in the order of R93 and what it writes (spec/43_decoder.md R182), and the
round trip (R183). For the round trip, the pivot steps keep the common zeros of the first rows, so a zero pivot would give
a polynomial with more zeros than its degree; the matrix ends diagonal, and the message solves it
(spec/42_linear_solver.md R162, R166).
-/
namespace Sys2Proof

theorem decode_formatV_decode (n : BitVec 9) (l pol : Byte) :
    decode (formatV 6 n pol l) = .cmd (.decode l.toNat n.toNat pol) := by
  simp [decode, guardReserved]

end Sys2Proof

namespace Sys2Proof.Machine

/-! ### The command DECODE (R182) -/

theorem State.eraseOutOfRange_iff (s : State) (N : Nat) :
    s.eraseOutOfRange N = true ↔ ∃ p, N ≤ p ∧ p ≤ 255 ∧ s.eraseBit p = true := by
  simp only [State.eraseOutOfRange, List.any_eq_true, List.mem_range, Bool.and_eq_true, decide_eq_true_eq,
    Config.bufSize, Nat.lt_succ_iff]
  exact exists_congr fun p => and_left_comm

theorem State.eraseOutOfRange_eq_false {s : State} {N : Nat} (h : ∀ p, N ≤ p → p ≤ 255 → s.eraseBit p = false) :
    s.eraseOutOfRange N = false := by
  rw [Bool.eq_false_iff, ne_eq, State.eraseOutOfRange_iff]
  rintro ⟨p, hN, h255, hp⟩
  exact Bool.false_ne_true ((h p hN h255).symm.trans hp)

section
variable {L N : Nat} {s : State} (pol : Byte)

theorem decodeEffect_length (hN : 256 < N) : decodeEffect L N pol s = ⟨.length, .nothing⟩ := by
  simpa [hN, hN.not_ge] using decodeEffect_cases L N pol s

theorem decodeEffect_eraseRange (hN : N ≤ 256) (herase : s.eraseOutOfRange N = true) :
    decodeEffect L N pol s = ⟨.eraseRange, .nothing⟩ := by
  simpa [hN, hN.not_gt, herase] using decodeEffect_cases L N pol s

theorem decodeEffect_insufficient (hN : N ≤ 256) (herase : s.eraseOutOfRange N = false)
    (hL : (s.survivors N).length < L) : decodeEffect L N pol s = ⟨.insufficient, .nothing⟩ := by
  simpa [hN, hN.not_gt, herase, hL, hL.not_ge] using decodeEffect_cases L N pol s

theorem decodeEffect_solves (hN : N ≤ 256) (herase : s.eraseOutOfRange N = false) (hL : L ≤ (s.survivors N).length) :
    decodeEffect L N pol s =
      solveOutcome L (s.elementsAt .pts (s.chosen L N)) (s.elementsAt .sym (s.chosen L N)) pol := by
  simpa [hN, hN.not_gt, herase, hL, hL.not_gt] using decodeEffect_cases L N pol s

/-- When its checks pass, DECODE completes with all its coefficients written, under code 0 or 6 by the pivot-fault bit. -/
theorem exec_decode_solves (hN : N ≤ 256) (herase : s.eraseOutOfRange N = false) (hL : L ≤ (s.survivors N).length)
    {C : List Byte} {pf : Bool}
    (hsolve : gjSolve L (s.elementsAt .pts (s.chosen L N)) (s.elementsAt .sym (s.chosen L N)) pol = (C, pf)) :
    ∃ t, exec (.decode L N pol) s = .next t ∧
      s.completesWithBytes t (if pf = true then .singular else .ok) .out L fun i => C.getD i 0 := by
  have heffect : effectOf (.decode L N pol) s = ⟨if pf = true then .singular else .ok, .buffer .out C⟩ := by
    refine (decodeEffect_solves pol hN herase hL).trans ?_
    rw [solveOutcome, hsolve]
  have hlen : C.length = L := by
    rw [← gjSolve_length L (s.elementsAt .pts (s.chosen L N)) (s.elementsAt .sym (s.chosen L N)) pol, hsolve]
  exact exec_completesWithBytes heffect hlen fun _ _ => rfl

end

/-- The survivors of the example of R182: positions 0 and 1 are erased. -/
theorem State.survivors_of_first_two_erased {s : State} (h : ∀ p, p ≤ 255 → s.eraseBit p = decide (p < 2)) :
    s.survivors 5 = [2, 3, 4] := by
  have hbits : s.survivors 5 = (List.range 5).filter fun p => !decide (p < 2) :=
    List.filter_congr fun p hp => by rw [h p ((List.mem_range.1 hp).le.trans (by decide))]
  rw [hbits]
  decide

/-- Settles O45: each check that fails gives its code and no write, and past the checks DECODE is the solver's write. -/
theorem decodeChecksThenSolves : Obligations.DecodeChecksThenSolves := by
  refine ⟨fun L N pol s hN => ?_, fun L N pol s hN hp => ?_, fun L N pol s hN hin hL => ?_,
    fun L N pol s hN hin hL => ?_, fun n l pol => ?_,
    fun w hop hne => illegalWord_of_reserved (.decode 0 0 0) hop hne,
    by decide, fun s => State.survivors_of_first_two_erased, by decide⟩
  · exact exec_completesWithout (decodeEffect_length pol hN)
  · exact exec_completesWithout (decodeEffect_eraseRange pol hN ((s.eraseOutOfRange_iff N).2 hp))
  · exact exec_completesWithout (decodeEffect_insufficient pol hN (State.eraseOutOfRange_eq_false hin) hL)
  · obtain ⟨t, ht, hbytes⟩ := exec_decode_solves pol hN (State.eraseOutOfRange_eq_false hin) hL rfl
    exact ⟨t, _, _, ht, rfl, hbytes⟩
  · exact (congrArg decode (shifted_fields_eq_formatV 6 n pol l)).trans (decode_formatV_decode n l pol)

/-! ### Solutions of the matrix's rows (R162) -/

/-- Row `j` of the matrix as a linear form, in the residues modulo `P_pol`: its value at `x`, column `n` included. -/
noncomputable def WorkMatrix.rowSum (w : WorkMatrix) (n : Nat) (pol : Byte) (x : Nat → AdjoinRoot (redPoly pol))
    (j : Nat) : AdjoinRoot (redPoly pol) := ∑ m ∈ Finset.range (n + 1), residue pol (w.entry j m) * x m

@[simp] theorem gfAdd_self (a : Byte) : gfAdd a a = 0#8 := BitVec.xor_self

/-- An element is its own negative. -/
theorem residue_add_self (pol a : Byte) : residue pol a + residue pol a = 0 := by
  rw [← residue_gfAdd, gfAdd_self, residue_zero]

/-- Under an irreducible `P_pol` a quotient by `a`, times `a`, is the dividend (R121). -/
theorem gfMul_gfMul_gfInv {a pol : Byte} (hpol : irreduciblePol pol) (ha : a ≠ 0) (b : Byte) :
    gfMul a (gfMul b (gfInv a pol) pol) pol = b := by
  rw [gfMul_comm b, ← gfMul_assoc, gfMul_gfInv hpol ha, gfMul_comm]
  exact gfMul_one b pol

/-- Column `m` of the first `n` holds the power `m` of the row's point (R161). -/
theorem residue_vandermonde_entry {n j m : Nat} (ps vs : List Byte) (pol : Byte) (hj : j < n) (hm : m < n) :
    residue pol ((vandermonde n ps vs pol).entry j m) = residue pol (ps.getD j 0) ^ m := by
  rw [vandermonde_entry ps vs pol hj hm]
  induction m with
  | zero =>
    rw [powersFrom_getD_zero _ _ _ hm, pow_zero]
    exact residue_one pol
  | succ m ih => rw [powersFrom_getD_succ _ _ _ hm, residue_gfMul, ih (Nat.lt_of_succ_lt hm), pow_succ]

section
variable {n : Nat} (ps vs : List Byte) (pol : Byte)

/-- Pivot step `i` adds a multiple of row `i` to every other row. -/
theorem rowSum_solverMatrix_succ {i j : Nat} (x : Nat → AdjoinRoot (redPoly pol)) (hi : i < n) (hj : j < n) :
    (solverMatrix n ps vs pol (i + 1)).rowSum n pol x j =
      if j = i then (solverMatrix n ps vs pol i).rowSum n pol x j
      else (solverMatrix n ps vs pol i).rowSum n pol x j +
        residue pol (gfMul ((solverMatrix n ps vs pol i).entry j i)
          (gfInv ((solverMatrix n ps vs pol i).entry i i) pol) pol) * (solverMatrix n ps vs pol i).rowSum n pol x i := by
  have hentry {m : Nat} (hm : m ∈ Finset.range (n + 1)) :=
    solverMatrix_succ_entry ps vs pol hi hj (Finset.mem_range_succ_iff.1 hm)
  unfold WorkMatrix.rowSum
  split
  · next h => exact Finset.sum_congr rfl fun m hm => by rw [hentry hm, if_pos h]
  · next h =>
    rw [Finset.mul_sum, ← Finset.sum_add_distrib]
    refine Finset.sum_congr rfl fun m hm => ?_
    rw [hentry hm, if_neg h, residue_gfAdd, residue_gfMul, add_mul, mul_assoc]

/-- The pivot steps `0 .. t-1` keep the common zeros of the first `s` rows, for every `s ≥ t`: each of these steps adds
multiples of one of these rows, and leaves that row as it was. -/
theorem rowSum_solverMatrix_zero_iff {s t : Nat} (x : Nat → AdjoinRoot (redPoly pol)) (hts : t ≤ s) (hs : s ≤ n) :
    (∀ j, j < s → (solverMatrix n ps vs pol t).rowSum n pol x j = 0) ↔
      ∀ j, j < s → (vandermonde n ps vs pol).rowSum n pol x j = 0 := by
  induction t with
  | zero => rfl
  | succ i ih =>
    rw [← ih (Nat.le_of_succ_le hts)]
    have hstep {j : Nat} (hj : j < s) :=
      rowSum_solverMatrix_succ ps vs pol x (Nat.lt_of_lt_of_le hts hs) (Nat.lt_of_lt_of_le hj hs)
    have hpivot := (hstep hts).trans (if_pos rfl)
    refine ⟨fun h j hj => ?_, fun h j hj => ?_⟩
    · have hzero := h j hj
      rw [hstep hj, ← hpivot, h i hts, mul_zero, add_zero, ite_self] at hzero
      exact hzero
    · rw [hstep hj, h j hj, h i hts, mul_zero, add_zero, ite_self]

end

/-! ### Regular systems: the elimination ends in a diagonal matrix (R162, R166) -/

/-- The first `t` columns are those of a diagonal matrix with a nonzero diagonal. -/
def WorkMatrix.diagonalUpTo (w : WorkMatrix) (n t : Nat) : Prop :=
  ∀ j m, j < n → m < t → (w.entry j m = 0 ↔ j ≠ m)

/-- The vector that a zero pivot in column `t` makes a common zero of the rows up to `t`: 1 at `t`, nothing beyond, and
before it what clears the diagonal rows. -/
noncomputable def WorkMatrix.nullVector (w : WorkMatrix) (pol : Byte) (t m : Nat) : AdjoinRoot (redPoly pol) :=
  if m < t then residue pol (gfMul (w.entry m t) (gfInv (w.entry m m) pol) pol) else if m = t then 1 else 0

@[simp] theorem WorkMatrix.nullVector_self (w : WorkMatrix) (pol : Byte) (t : Nat) : w.nullVector pol t t = 1 := by
  simp [nullVector]

theorem WorkMatrix.nullVector_beyond (w : WorkMatrix) (pol : Byte) {t m : Nat} (h : t < m) :
    w.nullVector pol t m = 0 := by
  simp [nullVector, h.not_gt, h.ne']

section
variable {n t : Nat} {ps : List Byte} (vs : List Byte) {pol : Byte} (hpol : irreduciblePol pol)
include hpol

/-- Pivot step `t` clears column `t` outside its pivot and leaves the columns before it. -/
theorem solverMatrix_diagonalUpTo_succ (ht : t < n) (hdiag : (solverMatrix n ps vs pol t).diagonalUpTo n t)
    (hpivot : (solverMatrix n ps vs pol t).entry t t ≠ 0) :
    (solverMatrix n ps vs pol (t + 1)).diagonalUpTo n (t + 1) := by
  intro j m hj hm
  rw [solverMatrix_succ_entry ps vs pol ht hj (hm.le.trans ht)]
  obtain hlt | rfl := Nat.lt_succ_iff_lt_or_eq.1 hm
  · have hzero : (solverMatrix n ps vs pol t).entry t m = 0#8 := (hdiag t m ht hlt).2 hlt.ne'
    rw [← hdiag j m hj hlt, hzero, gfMul_zero, gfAdd_comm, zero_gfAdd, ite_self]
  · split
    · next h => simpa [h] using hpivot
    · next h =>
      rw [gfMul_comm (gfMul _ _ _), gfMul_gfMul_gfInv hpol hpivot]
      simp [h]

theorem rowSum_nullVector {w : WorkMatrix} (ht : t < n) (hdiag : w.diagonalUpTo n t) (hpivot : w.entry t t = 0)
    {j : Nat} (hj : j < t + 1) : w.rowSum n pol (w.nullVector pol t) j = 0 := by
  have hother {m : Nat} (hjm : j ≠ m) (hmt : m ≠ t) : residue pol (w.entry j m) * w.nullVector pol t m = 0 := by
    obtain hlt | hgt := hmt.lt_or_gt
    · simp [(hdiag j m (Nat.lt_of_lt_of_le hj ht) hlt).2 hjm]
    · rw [w.nullVector_beyond pol hgt, mul_zero]
  obtain hlt | rfl := Nat.lt_succ_iff_lt_or_eq.1 hj
  · have hne : w.entry j j ≠ 0 := fun h => (hdiag j j (hlt.trans ht) hlt).1 h rfl
    have hclear : residue pol (w.entry j j) * w.nullVector pol t j = residue pol (w.entry j t) := by
      rw [WorkMatrix.nullVector, if_pos hlt, ← residue_gfMul, gfMul_gfMul_gfInv hpol hne]
    rw [WorkMatrix.rowSum, Finset.sum_eq_add_of_mem j t (Finset.mem_range_succ_iff.2 (hlt.trans ht).le)
      (Finset.mem_range_succ_iff.2 ht.le) hlt.ne fun m _ hm => hother hm.1.symm hm.2, hclear,
      WorkMatrix.nullVector_self, mul_one, residue_add_self]
  · refine Finset.sum_eq_zero fun m _ => ?_
    by_cases hm : m = j
    · simp [hm, hpivot]
    · exact hother (Ne.symm hm) hm

variable (hlen : ps.length = n) (hps : ps.Nodup)
include hlen hps

/-- No nonzero polynomial of degree at most `t` vanishes at the first `t+1` points. -/
theorem eq_zero_of_rowSum_vandermonde (ht : t < n) {x : Nat → AdjoinRoot (redPoly pol)} (hx : ∀ m, t < m → x m = 0)
    (hzero : ∀ j, j < t + 1 → (vandermonde n ps vs pol).rowSum n pol x j = 0) : x t = 0 := by
  have : Fact (Irreducible (redPoly pol)) := ⟨hpol⟩
  have hinj : Function.Injective fun j : Fin (t + 1) => residue pol (ps.getD j 0) := by
    intro i j hij
    have hi : (i : Nat) < ps.length := by omega
    have hj : (j : Nat) < ps.length := by omega
    have hget := residue_injective pol hij
    rw [List.getD_eq_getElem _ _ hi, List.getD_eq_getElem _ _ hj] at hget
    exact Fin.ext (hps.getElem_inj_iff.1 hget)
  refine congrFun (Matrix.eq_zero_of_forall_index_sum_pow_mul_eq_zero (v := fun m : Fin (t + 1) => x m) hinj
    fun j => ?_) (Fin.last t)
  have hj := hzero j j.isLt
  rw [WorkMatrix.rowSum, ← Finset.sum_subset (Finset.range_subset_range.2 (Nat.succ_le_succ ht.le))
    (fun m _ hm => by rw [hx m (by simpa using hm), mul_zero]), Finset.sum_range] at hj
  rw [← hj]
  exact Finset.sum_congr rfl fun m _ => by
    rw [residue_vandermonde_entry ps vs pol (Nat.lt_of_lt_of_le j.isLt ht) (Nat.lt_of_lt_of_le m.isLt ht)]

/-- A pivot is nonzero when its step comes: else `nullVector` would be a polynomial of degree `t` with `t+1` zeros. -/
theorem solverMatrix_pivot_ne_zero (ht : t < n) (hdiag : (solverMatrix n ps vs pol t).diagonalUpTo n t) :
    (solverMatrix n ps vs pol t).entry t t ≠ 0 := by
  intro hpivot
  have : Fact (Irreducible (redPoly pol)) := ⟨hpol⟩
  have hzero := (rowSum_solverMatrix_zero_iff ps vs pol _ t.le_succ ht).1 fun j hj =>
    rowSum_nullVector hpol ht hdiag hpivot hj
  have hone := eq_zero_of_rowSum_vandermonde vs hpol hlen hps ht
    (fun m hm => WorkMatrix.nullVector_beyond _ pol hm) hzero
  rw [WorkMatrix.nullVector_self] at hone
  exact one_ne_zero hone

theorem solverMatrix_diagonalUpTo (ht : t ≤ n) : (solverMatrix n ps vs pol t).diagonalUpTo n t := by
  induction t with
  | zero => exact fun _ _ _ hm => absurd hm (Nat.not_lt_zero _)
  | succ t ih =>
    have hdiag := ih (Nat.le_of_succ_le ht)
    exact solverMatrix_diagonalUpTo_succ vs hpol ht hdiag (solverMatrix_pivot_ne_zero vs hpol hlen hps ht hdiag)

/-- No pivot faults, at its step or at the division (R164). -/
theorem gjSolve_pf_eq_false : (gjSolve n ps vs pol).2 = false := by
  rw [Bool.eq_false_iff, ne_eq, gjSolve_pf_iff]
  rintro ⟨i, hi, hfault⟩
  simp only [invOk_eq_false_iff hpol] at hfault
  obtain hfault | hfault := hfault
  · exact solverMatrix_pivot_ne_zero vs hpol hlen hps hi (solverMatrix_diagonalUpTo vs hpol hlen hps hi.le) hfault
  · exact (solverMatrix_diagonalUpTo vs hpol hlen hps le_rfl i i hi hi).1 hfault rfl

end

/-! ### The solution of a regular system (R163, R166) -/

/-- Coefficients as a vector for the augmented rows: column `n` has coefficient 1. -/
noncomputable def solutionVector (pol : Byte) (cs : List Byte) (m : Nat) : AdjoinRoot (redPoly pol) :=
  residue pol ((cs ++ [1]).getD m 0)

theorem solutionVector_of_lt (pol : Byte) {cs : List Byte} {m : Nat} (hm : m < cs.length) :
    solutionVector pol cs m = residue pol (cs.getD m 0) := by
  rw [solutionVector, List.getD_append _ _ _ _ hm]

theorem solutionVector_last (pol : Byte) (cs : List Byte) : solutionVector pol cs cs.length = 1 := by
  simp [solutionVector]

section
variable {ps vs cs : List Byte} {pol : Byte} {j : Nat} (hj : j < cs.length)
include hj

/-- Coefficients that satisfy equation `j` are a zero of row `j` of the augmented matrix. -/
theorem rowSum_vandermonde_solutionVector (hsol : horner cs (ps.getD j 0) pol = vs.getD j 0) :
    (vandermonde cs.length ps vs pol).rowSum cs.length pol (solutionVector pol cs) j = 0 := by
  have hcoeffs : ∑ m ∈ Finset.range cs.length,
      residue pol ((vandermonde cs.length ps vs pol).entry j m) * solutionVector pol cs m =
        residue pol (vs.getD j 0) := by
    rw [← hsol, residue_horner]
    refine Finset.sum_congr rfl fun m hm => ?_
    have hm := Finset.mem_range.1 hm
    rw [residue_vandermonde_entry ps vs pol hj hm, solutionVector_of_lt pol hm, mul_comm]
  rw [WorkMatrix.rowSum, Finset.sum_range_succ, hcoeffs, vandermonde_entry_value ps vs pol hj, solutionVector_last,
    mul_one, residue_add_self]

/-- Row `j` of a diagonal matrix determines coefficient `j`. -/
theorem getD_eq_quotient_of_rowSum (hpol : irreduciblePol pol) {w : WorkMatrix}
    (hdiag : w.diagonalUpTo cs.length cs.length) (hzero : w.rowSum cs.length pol (solutionVector pol cs) j = 0) :
    gfMul (w.entry j cs.length) (gfInv (w.entry j j) pol) pol = cs.getD j 0 := by
  have hne : w.entry j j ≠ 0 := fun h => (hdiag j j hj hj).1 h rfl
  have hother : ∀ m ∈ Finset.range cs.length, m ≠ j → residue pol (w.entry j m) * solutionVector pol cs m = 0 :=
    fun m hm hmj => by simp [(hdiag j m hj (Finset.mem_range.1 hm)).2 hmj.symm]
  rw [WorkMatrix.rowSum, Finset.sum_range_succ, Finset.sum_eq_single_of_mem j (Finset.mem_range.2 hj) hother,
    solutionVector_of_lt pol hj, solutionVector_last, mul_one, ← residue_gfMul, ← residue_gfAdd,
    residue_eq_zero_iff] at hzero
  have hvalue : gfMul (w.entry j j) (cs.getD j 0) pol = w.entry j cs.length := BitVec.xor_eq_zero_iff.1 hzero
  rw [← hvalue, gfMul_assoc, gfMul_gfMul_gfInv hpol hne]

end

/-- A regular system has no other solution than `gj_solve`'s. -/
theorem gjSolve_eq_of_solution {ps cs : List Byte} {pol : Byte} (hpol : irreduciblePol pol) (hps : ps.Nodup)
    (hlen : ps.length = cs.length) :
    gjSolve cs.length ps (ps.map fun x => horner cs x pol) pol = (cs, false) := by
  refine Prod.ext (List.ext_getElem (gjSolve_length _ _ _ _) fun i _ hi => ?_) (gjSolve_pf_eq_false _ hpol hlen hps)
  rw [← List.getD_eq_getElem _ 0, ← List.getD_eq_getElem _ 0, gjSolve_getD _ _ _ hi]
  refine getD_eq_quotient_of_rowSum hi hpol (solverMatrix_diagonalUpTo _ hpol hlen hps le_rfl)
    ((rowSum_solverMatrix_zero_iff _ _ pol _ le_rfl le_rfl).2 (fun j hj => ?_) i hi)
  refine rowSum_vandermonde_solutionVector hj ?_
  simp [List.getD_eq_getElem?_getD, hlen, hj]

/-! ### The round trip (R183) -/

theorem State.nodup_elementsAt_chosen {s : State} {b : Buf} {N : Nat} (h : (s.elements b N).Nodup) (L : Nat) :
    (s.elementsAt b (s.chosen L N)).Nodup :=
  h.sublist (((List.take_sublist L _).trans List.filter_sublist).map _)

/-- Settles O47: the chosen symbols are a regular system that the message solves. -/
theorem decodeRecoversMessage : Obligations.DecodeRecoversMessage := by
  intro L N pol s msg hpol hdistinct _ _ hL hN hin hmsg hsym
  subst hmsg
  have hvalues : s.elementsAt .sym (s.chosen msg.length N) =
      (s.elementsAt .pts (s.chosen msg.length N)).map fun x => horner msg x pol := by
    rw [State.elementsAt, State.elementsAt, List.map_map]
    exact List.map_congr_left fun p hp => hsym p (List.mem_of_mem_take hp)
  have hsolve := gjSolve_eq_of_solution (cs := msg) hpol (State.nodup_elementsAt_chosen hdistinct msg.length)
    (by rw [State.elementsAt_length, State.chosen_length s hL])
  exact exec_decode_solves pol hN (State.eraseOutOfRange_eq_false hin) hL (hvalues ▸ hsolve)

end Sys2Proof.Machine
end

section
/-!
PROOFS of the family 44_control: NOP completes with code 0 and writes nothing, and its word is 0 alone
(spec/44_control.md R200).
-/
namespace Sys2Proof.Machine

/-- Settles O34: NOP's effect has no writes, and every bit of its word below OP is reserved. -/
theorem nopOnlyCompletes : Obligations.NopOnlyCompletes :=
  ⟨fun _ => exec_completesWithout rfl, by decide, by decide, fun _ hop hne => illegalWord_of_reserved .nop hop hne⟩

end Sys2Proof.Machine
end

section
/-!
PROOFS of the family 60_exceptions: the interrupt line in the words the host reads (spec/60_exceptions.md R216), and which
completion codes each command can report (R213).
-/
namespace Sys2Proof.Machine

/-! ### The interrupt line (R216) -/

theorem State.irq_eq_of_words (s : State) : s.irq = ((s.statusWord.getLsbD 1 && s.ctrlWord.getLsbD 0) ||
    (s.statusWord.getLsbD 8 && s.ctrlWord.getLsbD 1)) := by
  rw [State.getLsbD_statusWord s (by decide), State.getLsbD_statusWord s (by decide),
    State.getLsbD_ctrlWord s (by decide), State.getLsbD_ctrlWord s (by decide)]
  rfl

theorem State.irq_of_masked {s : State} (h : s.ctrlWord = 0) : s.irq = false := by
  simp [State.irq_eq_of_words, h]

theorem State.irq_of_acknowledged {s : State} {old : Word} (h : s.statusWord = old &&& ~~~0x102#32) :
    s.irq = false := by
  simp [State.irq_eq_of_words, h]

/-- Settles O28: the acknowledging write is O27's, and the masking one O26's, where SRST clears CTRL as well. -/
theorem interruptLineFollowsFlags : Obligations.InterruptLineFollowsFlags := by
  refine ⟨State.irq_eq_of_words, ?_⟩
  rintro s w rest hmove (⟨hpend, hack⟩ | ⟨hpend, hmask⟩)
  · obtain ⟨t, hstep, -, -, hstatus, -⟩ := statusWriteClearsFlags s w rest hmove hpend
    rw [hack] at hstatus
    exact ⟨t, hstep, State.irq_of_acknowledged hstatus⟩
  · obtain ⟨t, hstep, -, -, hsrst, henables⟩ := ctrlWriteSetsEnables s w rest hmove hpend
    refine ⟨t, hstep, State.irq_of_masked ?_⟩
    cases h31 : w.getLsbD 31 with
    | true => exact (hsrst h31).2
    | false => exact (henables h31).1.trans hmask

/-! ### The completion codes of each command (R213) -/

/-- The completion codes a command can report (R93). -/
def reportableCodes : Instr → List Code
  | .nop | .mul .. => [.ok]
  | .inv .. => [.ok, .noninv]
  | .eval .. | .encode .. => [.ok, .length]
  | .solve .. => [.ok, .singular]
  | .decode .. => [.ok, .length, .eraseRange, .insufficient, .singular]

theorem solveOutcome_code (n : Nat) (ps vs : List Byte) (pol : Byte) :
    (solveOutcome n ps vs pol).code = .ok ∨ (solveOutcome n ps vs pol).code = .singular := by
  rcases solveOutcome_cases n ps vs pol with ⟨e, -⟩ | ⟨e, -⟩ <;> simp [e]

theorem effectOf_code_reportable (i : Instr) (s : State) : (effectOf i s).code ∈ reportableCodes i := by
  cases i with
  | nop => exact List.mem_cons_self
  | mul a b pol => exact List.mem_cons_self
  | inv a pol => cases h : invOk a pol <;> simp [effectOf, invEffect, reportableCodes, h]
  | eval x L pol => rcases evalEffect_cases x L pol s with ⟨-, e⟩ | ⟨-, e⟩ <;> simp [effectOf, reportableCodes, e]
  | encode L N pol => rcases encodeEffect_cases L N pol s with ⟨-, e⟩ | ⟨-, e⟩ <;> simp [effectOf, reportableCodes, e]
  | solve n pol =>
    rcases solveOutcome_code n (s.elements .pts n) (s.elements .sym n) pol with e | e <;>
      simp [effectOf, solveEffect, reportableCodes, e]
  | decode L N pol =>
    rcases decodeEffect_cases L N pol s with ⟨-, e⟩ | ⟨-, -, e⟩ | ⟨-, -, -, e⟩ | ⟨-, -, -, e⟩
    · simp [effectOf, reportableCodes, e]
    · simp [effectOf, reportableCodes, e]
    · simp [effectOf, reportableCodes, e]
    · rcases solveOutcome_code L (s.elementsAt .pts (s.chosen L N)) (s.elementsAt .sym (s.chosen L N)) pol with h | h <;>
        simp [effectOf, reportableCodes, e, h]

theorem eq_inv_of_noninv_reportable {i : Instr} (h : Code.noninv ∈ reportableCodes i) : ∃ a pol, i = .inv a pol := by
  cases i with
  | inv a pol => exact ⟨a, pol, rfl⟩
  | _ => simp [reportableCodes] at h

theorem eq_solve_or_decode_of_singular_reportable {i : Instr} (h : Code.singular ∈ reportableCodes i) :
    (∃ n pol, i = .solve n pol) ∨ ∃ L N pol, i = .decode L N pol := by
  cases i with
  | solve n pol => exact .inl ⟨n, pol, rfl⟩
  | decode L N pol => exact .inr ⟨L, N, pol, rfl⟩
  | _ => simp [reportableCodes] at h

theorem encodeEffect_length {L N : Nat} (pol : Byte) (s : State) (hbad : L = 0 ∨ 256 < N) :
    encodeEffect L N pol s = ⟨.length, .nothing⟩ := if_pos hbad

/-- Settles O52: the checks of R93 in their order, and each computed code is in the list of the commands that report it. -/
theorem completionCodePriority : Obligations.CompletionCodePriority := by
  refine ⟨fun w s why hill => congrArg Effect.code (execute_of_illegal hill s), fun x L N pol s => ⟨?_, fun hbad => ?_⟩,
    fun L N pol s hN => congrArg Effect.code (decodeEffect_length pol hN),
    fun L N pol s hN herase => congrArg Effect.code (decodeEffect_eraseRange pol hN herase),
    fun L N pol s hN herase hL => congrArg Effect.code (decodeEffect_insufficient pol hN herase hL),
    fun i s hcode => ?_, fun i s hcode => ?_⟩
  · rintro rfl
    rfl
  · exact congrArg Effect.code (encodeEffect_length pol s hbad)
  · exact eq_inv_of_noninv_reportable (hcode ▸ effectOf_code_reportable i s)
  · exact eq_solve_or_decode_of_singular_reportable (hcode ▸ effectOf_code_reportable i s)

end Sys2Proof.Machine
end

section
/-!
PROOFS of the decoder and the encoder: which fields of a word make up its command (spec/30_encoding.md R86, R88), and that
`decode` and `encode` are inverse to each other (R90).
-/
namespace Sys2Proof

/-! ### The fields that make up a command (R86, R88) -/

/-- What a word that decodes to a command holds: the opcode, zeros in the reserved bits, and every operand in its field. -/
theorem decode_eq_cmd_cases {w : Word} {i : Instr} (h : decode w = .cmd i) :
    opField w = 0 ∧ w.extractLsb' 0 28 = 0 ∧ i = .nop ∨
    opField w = 1 ∧ rsv4Field w = 0 ∧ i = .mul (aField w) (bField w) (polField w) ∨
    opField w = 2 ∧ w.extractLsb' 16 12 = 0 ∧ i = .inv (aField w) (polField w) ∨
    opField w = 3 ∧ rsv4Field w = 0 ∧ i = .eval (aField w) (bField w).toNat (polField w) ∨
    opField w = 4 ∧ rsv3Field w = 0 ∧ i = .encode (aField w).toNat (nField w).toNat (polField w) ∨
    opField w = 5 ∧ w.extractLsb' 16 12 = 0 ∧ i = .solve (aField w).toNat (polField w) ∨
    opField w = 6 ∧ rsv3Field w = 0 ∧ i = .decode (aField w).toNat (nField w).toNat (polField w) := by
  have known {op : BitVec 4} {k : Nat} {reserved : BitVec k} {j : Instr} (hop : (opField w).toNat = op.toNat)
      (hguard : guardReserved (reserved == 0) j = .cmd i) : opField w = op ∧ reserved = 0 ∧ i = j := by
    obtain ⟨hzero, rfl⟩ := guardReserved_eq_cmd_iff.1 hguard
    exact ⟨BitVec.eq_of_toNat_eq hop, eq_of_beq hzero, rfl⟩
  unfold decode at h
  split at h
  case h_1 hop => exact .inl (known (op := 0) hop h)
  case h_2 hop => exact .inr (.inl (known (op := 1) hop h))
  case h_3 hop => exact .inr (.inr (.inl (known (op := 2) hop h)))
  case h_4 hop => exact .inr (.inr (.inr (.inl (known (op := 3) hop h))))
  case h_5 hop => exact .inr (.inr (.inr (.inr (.inl (known (op := 4) hop h)))))
  case h_6 hop => exact .inr (.inr (.inr (.inr (.inr (.inl (known (op := 5) hop h))))))
  case h_7 hop => exact .inr (.inr (.inr (.inr (.inr (.inr (known (op := 6) hop h))))))
  case h_8 => cases h

/-! ### Decoding after encoding, and encoding after decoding (R90) -/

theorem decode_formatV_solve (n pol : Byte) : decode (formatV 5 0 pol n) = .cmd (.solve n.toNat pol) :=
  decode_formatS_solve n pol

theorem toNat_ofNat_of_lt {k n : Nat} (h : n < 2 ^ k) : (BitVec.ofNat k n).toNat = n := by
  rw [BitVec.toNat_ofNat, Nat.mod_eq_of_lt h]

theorem decode_encode {i : Instr} (h : i.wf = true) : decode (encode i) = .cmd i := by
  cases i with
  | nop => decide
  | mul a b pol => exact decode_formatS_mul a b pol
  | inv a pol => exact decode_formatS_inv a pol
  | eval x L pol =>
    have hL : L < 2 ^ 8 := of_decide_eq_true h
    rw [encode, Instr.opcode, decode_formatS_eval, toNat_ofNat_of_lt hL]
  | encode L N pol =>
    obtain ⟨hL, hN⟩ : L < 2 ^ 8 ∧ N < 2 ^ 9 := by simpa [Instr.wf, lengthFits, countFits] using h
    rw [Sys2Proof.encode, Instr.opcode, decode_formatV_encode, toNat_ofNat_of_lt hL, toNat_ofNat_of_lt hN]
  | solve n pol =>
    have hn : n < 2 ^ 8 := of_decide_eq_true h
    rw [encode, Instr.opcode, decode_formatV_solve, toNat_ofNat_of_lt hn]
  | decode L N pol =>
    obtain ⟨hL, hN⟩ : L < 2 ^ 8 ∧ N < 2 ^ 9 := by simpa [Instr.wf, lengthFits, countFits] using h
    rw [encode, Instr.opcode, decode_formatV_decode, toNat_ofNat_of_lt hL, toNat_ofNat_of_lt hN]

/-- The decoder gives only commands whose operands fit their fields (R84). -/
theorem wf_of_decode {w : Word} {i : Instr} (h : decode w = .cmd i) : i.wf = true := by
  have byteFits (v : Byte) : lengthFits v.toNat = true := decide_eq_true v.isLt
  have nFits : countFits (nField w).toNat = true := decide_eq_true (nField w).isLt
  obtain ⟨-, -, rfl⟩ | ⟨-, -, rfl⟩ | ⟨-, -, rfl⟩ | ⟨-, -, rfl⟩ | ⟨-, -, rfl⟩ | ⟨-, -, rfl⟩ | ⟨-, -, rfl⟩ :=
    decode_eq_cmd_cases h <;> simp [Instr.wf, byteFits, nFits]

section
variable {w : Word}

/-- A word of format S whose reserved bits are 0 is made of its fields (R82). -/
theorem formatS_fields (h : rsv4Field w = 0) : formatS (opField w) (bField w) (polField w) (aField w) = w := by
  grind [formatS, opField, rsv4Field, bField, polField, aField]

/-- A word of format V whose reserved bits are 0 is made of its fields (R83). -/
theorem formatV_fields (h : rsv3Field w = 0) : formatV (opField w) (nField w) (polField w) (aField w) = w := by
  grind [formatV, opField, rsv3Field, nField, polField, aField]

/-- The row of INV: RSV4 and B are 0. -/
theorem formatS_fields_of_zeroB (h : w.extractLsb' 16 12 = 0) :
    formatS (opField w) 0 (polField w) (aField w) = w := by
  grind [formatS, opField, polField, aField]

/-- The row of SOLVE: RSV3 and N are 0. -/
theorem formatV_fields_of_zeroN (h : w.extractLsb' 16 12 = 0) :
    formatV (opField w) 0 (polField w) (aField w) = w := by
  grind [formatV, opField, polField, aField]

/-- The row of NOP: every bit below OP is 0. -/
theorem formatS_fields_of_zero (h : w.extractLsb' 0 28 = 0) : formatS (opField w) 0 0 0 = w := by
  grind [formatS, opField]

end

theorem encode_of_decode {w : Word} {i : Instr} (h : decode w = .cmd i) : encode i = w := by
  obtain ⟨hop, hres, rfl⟩ | ⟨hop, hres, rfl⟩ | ⟨hop, hres, rfl⟩ | ⟨hop, hres, rfl⟩ | ⟨hop, hres, rfl⟩ |
    ⟨hop, hres, rfl⟩ | ⟨hop, hres, rfl⟩ := decode_eq_cmd_cases h <;>
    simp only [encode, Instr.opcode, BitVec.ofNat_toNat, BitVec.setWidth_eq, ← hop]
  · exact formatS_fields_of_zero hres
  · exact formatS_fields hres
  · exact formatS_fields_of_zeroB hres
  · exact formatS_fields hres
  · exact formatV_fields hres
  · exact formatV_fields_of_zeroN hres
  · exact formatV_fields hres

/-- Settles O6: `decode_encode` by the words of the two formats, and back by the fields a decoded word is made of. -/
theorem decodeAndEncodeAgree : Obligations.DecodeAndEncodeAgree :=
  ⟨fun _ => decode_encode, fun _ _ h => ⟨wf_of_decode h, encode_of_decode h⟩⟩

/-! ### The operands as numbers (R81 to R84) -/

section
variable (w : Word)

theorem toNat_aField : (aField w).toNat = w.toNat % 256 := by simp [aField]

theorem toNat_polField : (polField w).toNat = w.toNat / 256 % 256 := by
  simp [polField, Nat.shiftRight_eq_div_pow]

theorem toNat_bField : (bField w).toNat = w.toNat / 65536 % 256 := by
  simp [bField, Nat.shiftRight_eq_div_pow]

theorem toNat_nField : (nField w).toNat = w.toNat / 65536 % 512 := by
  simp [nField, Nat.shiftRight_eq_div_pow]

end

/-- Settles O8: `decode_eq_cmd_cases` leaves one row for each command, and its operands are fields of the word. -/
theorem fieldsComeFromTheirBits : Obligations.FieldsComeFromTheirBits := by
  intro w
  rw [← toNat_aField, ← toNat_polField, ← toNat_bField, ← toNat_nField]
  refine ⟨fun a b pol h => ?_, fun a pol h => ?_, fun x L pol h => ?_, fun L N pol h => ?_, fun n pol h => ?_,
    fun L N pol h => ?_⟩
  all_goals
    have hrow := decode_eq_cmd_cases h
    simp only [reduceCtorEq, and_false, false_or, or_false, Instr.mul.injEq, Instr.inv.injEq, Instr.eval.injEq,
      Instr.encode.injEq, Instr.solve.injEq, Instr.decode.injEq] at hrow
    obtain ⟨-, -, hoperands⟩ := hrow
    simpa only [BitVec.toNat_inj] using hoperands

/-- Settles O10: the decoder evaluated on the nine words. -/
theorem sampleWordsDecode : Obligations.SampleWordsDecode := by
  unfold Obligations.SampleWordsDecode
  decide

end Sys2Proof
end

section
/-!
PROOFS of the state invariant: the reset state meets it, and each operation of a step keeps it, so every step does
(spec/10_state.md sections 2 and 3, spec/70_reset_and_hazards.md R257).
-/
namespace Sys2Proof.Machine

/-- While IDLE the clause about a command in progress says nothing. -/
theorem State.Inv.of_idle {s : State} (hidle : s.phase = .idle) (hbufs : s.bufs.wf = true)
    (hresult : s.result.toNat < 256) (herr : s.status.errProduced = true) (hinitial : s.bufs.initial < s.draws) : s.Inv :=
  ⟨hbufs, hresult, herr, fun hbusy => (nomatch hidle.symm.trans hbusy), hinitial⟩

/-- Settles O1: the reset state's buffers are empty, its registers 0 and its phase IDLE. -/
theorem resetMeetsInvariant : Obligations.ResetMeetsInvariant :=
  .of_idle rfl Buffers.wf_reset (by decide) (by decide) (by decide)

/-- The writes of any word's execution stay inside their buffer, since the decoder gives well-formed commands only. -/
theorem execute_buffer_length {w : Word} {s : State} {b : Buf} {vs : List Byte}
    (h : (execute w s).writes = .buffer b vs) : vs.length ≤ b.size := by
  cases hd : decode w with
  | illegal why => rw [execute_of_illegal hd] at h; cases h
  | cmd i => rw [execute_of_cmd hd] at h; exact effectOf_buffer_length (wf_of_decode hd) h

/-- A destination set in a buffer lies inside it (R95). -/
theorem dest_bytes_le {w : Word} {s : State} {b : Buf} {n : Nat} (h : dest w s = .bytes b n) : n ≤ b.size := by
  obtain ⟨-, -, hbytes⟩ := Writes.shape_of_dest h
  obtain ⟨vs, rfl, hvs⟩ := hbytes b n rfl
  exact execute_buffer_length hvs

theorem toNat_setWidth_byte_lt (v : Byte) : (v.setWidth 32).toNat < 256 := by
  rw [BitVec.toNat_setWidth]
  exact Nat.lt_of_le_of_lt (Nat.mod_le _ _) v.isLt

section
variable {s : State}

/-! ### The operations of a step keep the invariant -/

/-- Another state with the same registers, buffers and phase meets the invariant, if its wait is within bounds and no draw
was taken back. -/
theorem State.Inv.of_toArch {t : State} (h : s.Inv) (harch : t.toArch = s.toArch)
    (hwaited : s.phase = .busy → t.waited ≤ Config.tMax s.cur) (hdraws : s.draws ≤ t.draws) : t.Inv := by
  obtain ⟨hbufs, hresult, herr, hbusy, hinitial⟩ := h
  unfold State.Inv
  rw [harch]
  refine ⟨hbufs, hresult, herr, fun hb => ?_, hinitial.trans_le hdraws⟩
  obtain ⟨hdone, hcode, -⟩ := hbusy hb
  exact ⟨hdone, hcode, hwaited hb⟩

theorem State.Inv.waited_le (h : s.Inv) (hb : s.phase = .busy) : s.waited ≤ Config.tMax s.cur := by
  obtain ⟨-, -, -, hbusy, -⟩ := h
  obtain ⟨-, -, hwaited⟩ := hbusy hb
  exact hwaited

theorem State.Inv.resetMove (keep : Bool) : (s.resetMove keep).Inv := by
  cases keep <;> exact .of_idle rfl rfl (Nat.zero_lt_succ _) rfl (Nat.lt_succ_self _)

theorem State.Inv.complete (h : s.Inv) {e : Effect} (hlen : ∀ b vs, e.writes = .buffer b vs → vs.length ≤ b.size) :
    (s.complete e).Inv := by
  obtain ⟨hbufs, hresult, -, -, hinitial⟩ := h
  have herr : (s.status.completed e.code).errProduced = true := decide_eq_true e.code.bits_le
  obtain ⟨c, x⟩ := e
  cases x with
  | nothing => exact .of_idle rfl hbufs hresult herr hinitial
  | result v => exact .of_idle rfl hbufs (toNat_setWidth_byte_lt v) herr hinitial
  | buffer b vs =>
    refine .of_idle rfl (Buffers.wf_write _ _ _ _ hbufs ?_) hresult herr ?_
    · simpa using hlen b vs rfl
    · simpa using hinitial

theorem State.Inv.scramble_bufs (h : s.Inv) {d : Dest} (hd : ∀ b n, d = .bytes b n → n ≤ b.size) :
    (s.scramble d).bufs.wf = true ∧ (s.scramble d).bufs.initial < (s.scramble d).draws := by
  obtain ⟨hbufs, -, -, -, hinitial⟩ := h
  cases d with
  | nothing => exact ⟨hbufs, hinitial⟩
  | result => exact ⟨hbufs, Nat.lt_succ_of_lt hinitial⟩
  | bytes b n =>
    refine ⟨Buffers.wf_write _ _ _ _ hbufs ?_, ?_⟩
    · simpa [freeBytes] using hd b n rfl
    · exact (Buffers.write_initial _ _ _ _).trans_lt (Nat.lt_succ_of_lt hinitial)

theorem State.Inv.softReset (h : s.Inv) : s.softReset.Inv := by
  obtain ⟨hbufs, hinitial⟩ : s.softReset.bufs.wf = true ∧ s.softReset.bufs.initial < s.softReset.draws := by
    unfold State.softReset
    split
    · exact h.scramble_bufs fun b n hd => dest_bytes_le hd
    · obtain ⟨hbufs, -, -, -, hinitial⟩ := h
      exact ⟨hbufs, hinitial⟩
  exact .of_idle rfl hbufs (Nat.zero_lt_succ _) rfl hinitial

/-- A write of a mapped location keeps the invariant: a buffer word lies inside its buffer (R54). -/
theorem State.Inv.writeLocation (h : s.Inv) {addr : Offset} {l : Location} (hl : target addr = .location l) (v : Word) :
    (s.writeLocation l v).Inv := by
  have hinv := h
  obtain ⟨hbufs, hresult, herr, hbusy, hinitial⟩ := h
  cases l with
  | buffer b k =>
    have hin : k + 4 ≤ b.size := by
      rw [target_eq] at hl
      split at hl
      · next h4 => exact (mapAligned_buffer h4 hl).1
      · cases hl
    exact ⟨Buffers.wf_write _ _ _ _ hbufs hin, hresult, herr, hbusy, (Buffers.write_initial _ _ _ _).trans_lt hinitial⟩
  | ctrl =>
    cases hsrst : v.getLsbD 31 with
    | true => rw [State.writeLocation_ctrl_of_srst s hsrst]; exact hinv.softReset
    | false => rw [State.writeLocation_ctrl_of_not_srst s hsrst]; exact ⟨hbufs, hresult, herr, hbusy, hinitial⟩
  | status =>
    refine ⟨hbufs, hresult, herr, fun hb => ?_, hinitial⟩
    obtain ⟨hdone, hcode, hwaited⟩ := hbusy hb
    exact ⟨by simp [State.writeLocation, hdone], hcode, hwaited⟩
  | cmd => exact ⟨hbufs, hresult, rfl, fun _ => ⟨rfl, rfl, Nat.zero_le _⟩, hinitial⟩
  | result => exact hinv
  | id => exact hinv

theorem State.Inv.perform (h : s.Inv) (x : Transaction) : (s.perform x).Inv := by
  obtain ⟨e, -, hx⟩ | ⟨l, -, -, hx⟩ | ⟨l, hl, -, hx⟩ := s.perform_cases x <;> rw [hx]
  · refine h.of_toArch (s.busError_toArch x.we) ?_ ?_
    · cases x.we <;> exact h.waited_le
    · cases x.we
      · exact Nat.le_succ _
      · exact le_rfl
  · exact h
  · exact h.writeLocation hl x.wdata

theorem State.Inv.hostMove (h : s.Inv) : s.hostMove.Inv := by
  obtain ⟨-, hx⟩ | ⟨_, _, -, -, hx⟩ | ⟨x, rest, -, -, hx⟩ := s.hostMove_cases <;> rw [hx]
  · exact h
  · exact h
  · exact State.Inv.perform (s := { s with pending := rest }) h x

end

/-- Settles O2: whichever agent moves, its operation keeps the invariant; the host's wait is within T_MAX when it moves. -/
theorem stepKeepsInvariant : Obligations.StepKeepsInvariant := by
  intro s t h hstep
  obtain ⟨keep, -, rfl⟩ | ⟨hmove, rfl⟩ | ⟨-, rfl⟩ := step_cases hstep
  · exact State.Inv.resetMove keep
  · have hbegun : s.age.beginStep.Inv := h.of_toArch s.toArch_age (State.age_waited_le hmove) s.age_draws.ge
    exact hbegun.hostMove
  · exact State.Inv.complete (s := s.beginStep) h fun _ _ => execute_buffer_length

end Sys2Proof.Machine
end

section
/-!
PROOFS of the engine's step and of the two resets: a completion applies `execute(CUR)` and stays inside its command's range
(spec/30_encoding.md R94, spec/10_state.md R34), and what a hard and a soft reset leave (spec/70_reset_and_hazards.md R251,
R252).
-/
namespace Sys2Proof.Machine

/-! ### Which step comes (R21, R210) -/

/-- Settles O12: each of the three moves answers a next state. -/
theorem everyStepAnswersNext : Obligations.EveryStepAnswersNext := by
  intro s
  cases hmove : s.nextMove with
  | engine => exact ⟨_, step_of_engine hmove⟩
  | host => exact ⟨_, step_of_host hmove⟩
  | hardReset keep => exact ⟨_, step_of_hardReset hmove⟩

section
variable {s : State}

theorem State.host_of_fits {cycles : Nat} {later : List Turn} (hturn : s.schedule = .host cycles :: later)
    (hfits : s.waited + cycles ≤ Config.tMax s.cur) : s.nextMove = .host := by
  cases hphase : s.phase <;> simp [State.nextMove, State.hostFits, State.turnCycles, hturn, hphase, hfits]

theorem State.engine_of_turn {later : List Turn} (hbusy : s.phase = .busy) (hturn : s.schedule = .engine :: later) :
    s.nextMove = .engine := by
  simp [State.nextMove, hturn, hbusy]

/-- The engine's step in terms of the state it starts from: beginning a step changes no buffer, so no effect. -/
theorem step_engine_completes (hmove : s.nextMove = .engine) :
    step s = .next (s.beginStep.complete (execute s.cur s)) := by
  rw [step_of_engine hmove, execute_congr s.cur s.beginStep_bufs]

end

/-- Settles O11: both sides are the completion of the command's effect, and the placed word is the one written. -/
theorem stepRunsDecodedCommand : Obligations.StepRunsDecodedCommand := by
  refine ⟨fun s i hmove hcmd => ?_, fun s => ⟨rfl, rfl, rfl, rfl, rfl, rfl⟩, fun s w hw => ⟨rfl, ?_, rfl⟩⟩
  · rw [step_of_engine hmove, execute_of_cmd hcmd, exec_eq_complete]
  · change (BitVec.ofNat 32 (w % 2 ^ 32)).toNat = w
    rw [Nat.mod_eq_of_lt hw, toNat_ofNat_of_lt hw]

/-! ### Completion (R94) -/

/-- Settles O14: the step is `State.complete`, whose writes are read back kind by kind. -/
theorem completionAppliesExecute : Obligations.CompletionAppliesExecute := by
  intro s hmove
  refine ⟨State.busy_of_engine hmove, _, step_engine_completes hmove, s.beginStep.completedFrom_complete _, by simp,
    by simp, by simp, ?_⟩
  obtain ⟨c, x⟩ := execute s.cur s
  cases x with
  | nothing => exact ⟨rfl, s.beginStep.readByte_complete_nothing c⟩
  | result v => exact ⟨rfl, s.beginStep.readByte_complete_result c v⟩
  | buffer b vs =>
    exact ⟨rfl, fun b' hb' k => s.beginStep.readByte_complete_other c vs k hb',
      s.beginStep.readByte_complete_self c b vs⟩

/-- A completion changes at most the bytes of its destination set. -/
theorem State.complete_frame (s : State) {e : Effect} {d : Dest} (h : e.writes = .nothing ∨ e.writes.dest = d) :
    (d ≠ .result → (s.complete e).result = s.result) ∧
      ∀ b k, (∀ n, d = .bytes b n → n ≤ k) → (s.complete e).readByte b k = s.readByte b k := by
  obtain ⟨c, x⟩ := e
  cases x with
  | nothing => exact ⟨fun _ => rfl, fun b k _ => s.readByte_complete_nothing c b k⟩
  | result v =>
    obtain rfl : Dest.result = d := h.resolve_left (by simp)
    exact ⟨fun hd => absurd rfl hd, fun b k _ => s.readByte_complete_result c v b k⟩
  | buffer b' vs =>
    obtain rfl : Dest.bytes b' vs.length = d := h.resolve_left (by simp)
    refine ⟨fun _ => rfl, fun b k hk => ?_⟩
    by_cases hb : b = b'
    · subst hb
      rw [State.readByte_complete_self, if_neg (Nat.not_lt.2 (hk _ rfl))]
    · exact s.readByte_complete_other c vs k hb

/-- Settles O50: a command's writes are none, or cover its destination set, and a completion keeps the rest. -/
theorem commandsWriteOnlyTheirRange : Obligations.CommandsWriteOnlyTheirRange := by
  intro i s
  have hwrites : (effectOf i s).writes = .nothing ∨ (effectOf i s).writes.dest = fullDest i := by
    obtain ⟨-, hnone⟩ | ⟨-, hfull⟩ := effectOf_code_and_writes i s
    · exact .inl hnone
    · exact .inr hfull
  exact ⟨_, exec_eq_complete i s, s.sameOutside_complete _, rfl, rfl, s.complete_cur _, s.complete_frame hwrites⟩

/-! ### The hard reset (R251) -/

theorem State.ctrlWord_of_cleared {s : State} (h : s.ctrl = ⟨false, false⟩) : s.ctrlWord = 0 := by
  simp [State.ctrlWord, bitWord, h]

theorem State.statusWord_of_cleared {s : State} (h : s.status = ⟨false, 0, false⟩) (hidle : s.phase = .idle) :
    s.statusWord = 0 := by
  simp [State.statusWord, State.isBusy, bitWord, h, hidle]

theorem State.readByte_hardReset (s : State) (b : Buf) (k : Nat) :
    s.hardReset.readByte b k = Config.freeByte s.draws (b.base + k) := by
  cases b <;> rfl

/-- Settles O3: the step is `State.hardReset`, and the platform's choice changes the pending transactions only. -/
theorem hardResetLeavesSpecState : Obligations.HardResetLeavesSpecState := by
  intro s keep hmove
  refine ⟨_, step_of_hardReset hmove, ?_⟩
  cases keep <;>
    exact ⟨State.ctrlWord_of_cleared rfl, State.statusWord_of_cleared rfl rfl, rfl, rfl, rfl, rfl,
      s.beginStep.readByte_hardReset, Nat.lt_succ_self _, rfl⟩

/-! ### The soft reset (R252) -/

section
variable {s : State}

theorem State.readByte_softReset_idle (h : s.phase = .idle) : s.softReset.readByte = s.readByte :=
  State.readByte_congr (by simp [State.softReset_bufs, h])

theorem State.readByte_softReset_busy (h : s.phase = .busy) :
    s.softReset.readByte = (s.scramble (dest s.cur s)).readByte :=
  State.readByte_congr (by simp [State.softReset_bufs, h])

end

/-- Settles O4: the step is the soft reset (O26), and its destination set is empty, RESULT, or the first bytes of one buffer. -/
theorem softResetScramblesOnlyDestination : Obligations.SoftResetScramblesOnlyDestination := by
  intro s w rest hmove hpend hsrst
  obtain ⟨t, hstep, hresp, hrest, hreset, -⟩ := ctrlWriteSetsEnables s w rest hmove hpend
  obtain ⟨harch, hctrl⟩ := hreset hsrst
  have hread : t.readByte = s.softReset.readByte := State.readByte_congr (by rw [harch])
  refine ⟨t, hstep, hresp, hrest, hctrl, ?_, by rw [harch]; rfl, by rw [harch]; rfl, State.irq_congr harch,
    fun hidle b k => ?_, fun hbusy hdest b k => ?_,
    fun hbusy b n hdest => ⟨fun k hk => ?_, fun k hk => ?_, fun b' hb' k => ?_⟩⟩
  · exact (State.statusWord_congr harch).trans (State.statusWord_of_cleared rfl rfl)
  · rw [hread, State.readByte_softReset_idle hidle]
  · rw [hread, State.readByte_softReset_busy hbusy]
    obtain hdest | hdest := hdest <;> rw [hdest] <;> rfl
  · rw [hread, State.readByte_softReset_busy hbusy, hdest, State.readByte_scramble_self, if_pos hk]
  · rw [hread, State.readByte_softReset_busy hbusy, hdest, State.readByte_scramble_self, if_neg (Nat.not_lt.2 hk)]
  · rw [hread, State.readByte_softReset_busy hbusy, hdest, State.readByte_scramble_other s n k hb']

/-- A soft reset in the step after a completion: its results stand, and the registers are cleared. -/
theorem softReset_after_completion {s : State} {w : Word} {rest : List Transaction} {cycles : Nat} {later : List Turn}
    (hbusy : s.phase = .busy) (hturns : s.schedule = .engine :: .host cycles :: later) (hsrst : w.getLsbD 31 = true)
    (hpend : s.pending = ⟨true, 0x800#12, w⟩ :: rest) :
    ∃ t u, step s = .next t ∧ step t = .next u ∧ t.status.err = (execute s.cur s).code.bits ∧ t.status.done = true ∧
      t.sameBuffers u ∧ u.ctrlWord = 0 ∧ u.statusWord = 0 ∧ u.result = 0 ∧ u.pending = rest := by
  have hmove : (s.beginStep.complete (execute s.cur s)).nextMove = .host :=
    State.host_of_idle rfl (by simp [hturns])
  obtain ⟨u, hstep, -, hrest, hctrl, hstatus, hresult, -, -, hkept, -⟩ :=
    softResetScramblesOnlyDestination _ w rest hmove (by simpa using hpend) hsrst
  exact ⟨_, u, step_engine_completes (State.engine_of_turn hbusy hturns), hstep, rfl, rfl, hkept rfl, hctrl, hstatus,
    hresult, hrest⟩

/-- Settles O5: the host's turn fits within T_MAX, so the soft reset is performed while BUSY (O4); after the engine's turn
it is `softReset_after_completion`. -/
theorem engineAndSoftResetInEitherOrder : Obligations.EngineAndSoftResetInEitherOrder := by
  intro s w rest cycles later hbusy hfits hsrst hpend
  constructor
  · obtain ⟨t, hstep, -, hrest, -, hstatus, -, hidle, -⟩ := softResetScramblesOnlyDestination
      { s with schedule := .host cycles :: later } w rest (State.host_of_fits rfl hfits) hpend hsrst
    exact ⟨t, hstep, hstatus, hidle, hrest⟩
  · rw [← execute_congr s.cur (s := s) (t := { s with schedule := .engine :: .host cycles :: later }) rfl]
    exact softReset_after_completion hbusy rfl hsrst hpend

end Sys2Proof.Machine
end

section
/-!
PROOFS of the host port: which transactions are held (spec/20_memory.md R60), what the registers' reads return
(spec/10_state.md R24, R26, R30, R31), that CUR is not read while IDLE (R35), and what a host move can change while a command
is in progress (spec/20_memory.md R62, R64).
-/
namespace Sys2Proof.Machine

/-! ### The hold rule (R60) -/

/-- The buffer word of an offset below 0x420 (R54). -/
theorem exists_mapAligned_buffer {a : Nat} (h : a < 0x420) : ∃ b k, mapAligned a = .location (.buffer b k) := by
  obtain ⟨b, k, hk, rfl⟩ : ∃ (b : Buf) (k : Nat), k < b.size ∧ a = b.base + k := by
    by_cases herase : 0x400 ≤ a
    · exact ⟨.erase, a - 0x400, by change _ < 32; omega, by change _ = 0x400 + _; omega⟩
    · have hk : a % 0x100 < 256 := Nat.mod_lt _ (by decide)
      obtain h | h | h | h : a / 0x100 = 0 ∨ a / 0x100 = 1 ∨ a / 0x100 = 2 ∨ a / 0x100 = 3 := by omega
      · exact ⟨.msg, a % 0x100, hk, by change _ = 0 + _; omega⟩
      · exact ⟨.pts, a % 0x100, hk, by change _ = 0x100 + _; omega⟩
      · exact ⟨.sym, a % 0x100, hk, by change _ = 0x200 + _; omega⟩
      · exact ⟨.out, a % 0x100, hk, by change _ = 0x300 + _; omega⟩
  exact ⟨b, k, mapAligned_base_add b hk⟩

/-- The whole address map (R54, R59): the buffers, the five registers, and nothing else. -/
theorem mapAligned_cases (a : Nat) :
    a < 0x420 ∧ (∃ b k, mapAligned a = .location (.buffer b k)) ∨
    a = 0x800 ∧ mapAligned a = .location .ctrl ∨ a = 0x804 ∧ mapAligned a = .location .status ∨
    a = 0x808 ∧ mapAligned a = .location .cmd ∨ a = 0x80C ∧ mapAligned a = .location .result ∨
    a = 0x810 ∧ mapAligned a = .location .id ∨
    (¬ a < 0x420 ∧ a ≠ 0x808 ∧ a ≠ 0x80C) ∧ mapAligned a = .error .reserved := by
  by_cases hbuf : a < 0x420
  · exact .inl ⟨hbuf, exists_mapAligned_buffer hbuf⟩
  · by_cases hreg : a = 0x800 ∨ a = 0x804 ∨ a = 0x808 ∨ a = 0x80C ∨ a = 0x810
    · obtain rfl | rfl | rfl | rfl | rfl := hreg <;> simp [mapAligned]
    · have herr : mapAligned a = .error .reserved := by
        unfold mapAligned
        repeat rw [if_neg (by omega)]
      exact .inr (.inr (.inr (.inr (.inr (.inr ⟨by omega, herr⟩)))))

/-- R60's list: exactly these transactions are held, and only while BUSY. -/
theorem State.held_iff (s : State) (x : Transaction) : s.held x = true ↔ s.phase = .busy ∧ x.waitsForIdle := by
  rw [State.held, State.isBusy, Bool.and_eq_true, beq_iff_eq, target_eq, Transaction.waitsForIdle]
  refine and_congr_right fun _ => ?_
  by_cases h4 : x.addr.toNat % 4 = 0
  · rw [if_pos h4]
    obtain ⟨hlow, b, k, hmap⟩ | ⟨ha, hmap⟩ | ⟨ha, hmap⟩ | ⟨ha, hmap⟩ | ⟨ha, hmap⟩ | ⟨ha, hmap⟩ | ⟨ha, hmap⟩ :=
      mapAligned_cases x.addr.toNat <;> rw [hmap]
    · simp [Location.heldWhileBusy, h4, hlow]
    all_goals simp [Location.heldWhileBusy, ha]
  · simp [h4]

theorem State.held_eq_false_of {s : State} {x : Transaction} (h : s.phase = .busy → ¬ x.waitsForIdle) :
    s.held x = false := by
  rw [Bool.eq_false_iff, ne_eq, State.held_iff]
  exact fun ⟨hbusy, hwaits⟩ => h hbusy hwaits

/-- Settles O21: by `State.held_iff` such a transaction is held, and any other is performed at once. -/
theorem heldTransactionsWaitForIdle : Obligations.HeldTransactionsWaitForIdle := by
  intro s x rest hmove hpend
  constructor
  · intro hbusy hwaits
    exact ⟨_, step_of_held hmove hpend ((s.held_iff x).2 ⟨hbusy, hwaits⟩), s.toArch_age, rfl, s.age_pending⟩
  · intro hfree
    exact ⟨_, step_of_not_held hmove hpend (State.held_eq_false_of hfree), State.perform_response_isSome _ x,
      State.perform_pending _ x⟩

/-! ### Reads, and the writes that are ignored (R61) -/

section
variable {s : State} {addr : Offset} {v : Word} {rest : List Transaction}

theorem State.readLocation_congr {t : State} (h : t.toArch = s.toArch) (l : Location) :
    t.readLocation l = s.readLocation l := by
  have hread : t.readByte = s.readByte := State.readByte_congr (by rw [h])
  cases l with
  | buffer b k => simp only [State.readLocation, State.bufferWord, hread]
  | ctrl => simp only [State.readLocation, State.ctrlWord, h]
  | status => exact State.statusWord_congr h
  | cmd => rfl
  | result => exact congrArg Arch.result h
  | id => rfl

/-- A read that is not held returns the location's word and changes nothing of GF8RS. -/
theorem step_read_of_not_held (hmove : s.nextMove = .host) (hpend : s.pending = ⟨false, addr, v⟩ :: rest)
    {l : Location} (hloc : target addr = .location l) (hfree : s.held ⟨false, addr, v⟩ = false) :
    step s = .next ((s.dequeued rest).respond (.okRead (s.readLocation l))) := by
  rw [step_of_not_held hmove hpend hfree, State.perform_read hloc rfl,
    State.readLocation_congr (s.dequeued_toArch rest)]

/-- A read of a register that R60 does not hold is performed in either phase. -/
theorem step_read_of_never_held (hmove : s.nextMove = .host) (hpend : s.pending = ⟨false, addr, v⟩ :: rest)
    {l : Location} (hloc : target addr = .location l) (hl : l.heldWhileBusy false = false) :
    step s = .next ((s.dequeued rest).respond (.okRead (s.readLocation l))) :=
  step_read_of_not_held hmove hpend hloc (by rw [State.held_location hloc, hl, Bool.and_false])

end

/-- A performed read changes nothing of GF8RS, also where it gets `Err`. -/
theorem State.perform_read_toArch (s : State) {x : Transaction} (h : x.we = false) :
    (s.perform x).toArch = s.toArch := by
  obtain ⟨e, -, hx⟩ | ⟨l, -, -, hx⟩ | ⟨l, -, hwe, -⟩ := s.perform_cases x
  · rw [hx, State.busError_toArch]
  · rw [hx, State.respond_toArch]
  · exact absurd (h.symm.trans hwe) (by decide)

theorem step_read_sameArch {s : State} {x : Transaction} {rest : List Transaction} (hmove : s.nextMove = .host)
    (hpend : s.pending = x :: rest) (h : x.we = false) : ∃ t, step s = .next t ∧ s.sameArch t := by
  cases hheld : s.held x with
  | true => exact ⟨_, step_of_held hmove hpend hheld, s.toArch_age⟩
  | false =>
    exact ⟨_, step_of_not_held hmove hpend hheld, (State.perform_read_toArch _ h).trans (s.dequeued_toArch rest)⟩

/-- Settles O24: a read is held or performed, and changes nothing either way; CMD and ID are never held from a read, nor
RESULT and ID from a write. -/
theorem readsHaveNoSideEffect : Obligations.ReadsHaveNoSideEffect := by
  rintro s ⟨we, addr, v⟩ rest hmove hpend
  constructor
  · rintro rfl
    obtain ⟨t, hstep, harch⟩ := step_read_sameArch hmove hpend rfl
    refine ⟨t, hstep, harch, ?_, ?_⟩
    · rintro rfl
      rw [step_read_of_never_held hmove hpend target_cmd rfl] at hstep
      cases hstep
      rfl
    · rintro rfl
      rw [step_read_of_never_held hmove hpend (l := .id) (by decide) rfl] at hstep
      cases hstep
      rfl
  · rintro rfl (rfl | rfl)
    · exact ⟨_, step_write_of_never_held hmove hpend (l := .result) (by decide) rfl, s.dequeued_toArch rest, rfl, rfl⟩
    · exact ⟨_, step_write_of_never_held hmove hpend (l := .id) (by decide) rfl, s.dequeued_toArch rest, rfl, rfl⟩

/-! ### The words of STATUS and CTRL, field by field (R24, R26) -/

section
variable (s : State)

theorem State.getLsbD_statusWord_zero : s.statusWord.getLsbD 0 = s.isBusy := s.getLsbD_statusWord (by decide)

theorem State.getLsbD_statusWord_one : s.statusWord.getLsbD 1 = s.status.done := s.getLsbD_statusWord (by decide)

theorem State.extractLsb'_statusWord_err : s.statusWord.extractLsb' 4 4 = s.status.err := by
  apply BitVec.eq_of_getLsbD_eq
  intro i hi
  rw [BitVec.getLsbD_extractLsb', State.getLsbD_statusWord s (by omega)]
  simp [hi, show 4 + i < 8 by omega, show 4 + i ≠ 1 by omega]

end

/-- A slice of a word is 0 when each of its bits is. -/
theorem extractLsb'_eq_zero {w : Word} {start len : Nat} (h : ∀ i, i < len → w.getLsbD (start + i) = false) :
    w.extractLsb' start len = 0 := by
  apply BitVec.eq_of_getLsbD_eq
  intro i hi
  simp [hi, h i hi]

/-- Settles O25: the three reads return `State.readLocation`, whose bits are the fields. -/
theorem registerReadsReturnTheirBits : Obligations.RegisterReadsReturnTheirBits := by
  intro s addr v rest hmove hpend
  refine ⟨?_, ?_, ?_⟩
  · rintro rfl hidle
    exact ⟨_, step_read_of_not_held hmove hpend (l := .result) (by decide) (State.held_idle hidle _), rfl⟩
  · rintro rfl
    refine ⟨_, s.statusWord, step_read_of_never_held hmove hpend (l := .status) (by decide) rfl, rfl, ?_,
      s.getLsbD_statusWord_one, extractLsb'_eq_zero fun i hi => ?_, s.extractLsb'_statusWord_err,
      s.getLsbD_statusWord (by decide), extractLsb'_eq_zero fun i hi => ?_⟩
    · rw [State.getLsbD_statusWord_zero, State.isBusy, beq_iff_eq]
    · rw [State.getLsbD_statusWord s (by omega)]
      interval_cases i <;> rfl
    · rw [State.getLsbD_statusWord s (by omega)]
      simp (disch := omega) only [if_neg]
  · rintro rfl
    refine ⟨_, s.ctrlWord, step_read_of_never_held hmove hpend (l := .ctrl) (by decide) rfl, rfl,
      s.getLsbD_ctrlWord (by decide), s.getLsbD_ctrlWord (by decide), extractLsb'_eq_zero fun i hi => ?_⟩
    rw [State.getLsbD_ctrlWord s (by omega)]
    simp (disch := omega) only [if_neg]

/-! ### CUR while IDLE (R35) -/

/-- `s` with another word in CUR. -/
def State.withCur (s : State) (c : Word) : State := { s with cur := c }

section
variable {s : State} (hidle : s.phase = .idle) (c : Word)
include hidle

theorem State.softReset_withCur : (s.withCur c).softReset = s.softReset.withCur c := by
  simp [State.softReset, State.clearRegisters, State.withCur, hidle]

/-- What a write does while IDLE, it does under every CUR; only an accepted command sets CUR. -/
theorem State.writeLocation_withCur (l : Location) (v : Word) :
    ∃ c', (s.withCur c).writeLocation l v = (s.writeLocation l v).withCur c' := by
  cases l with
  | cmd => exact ⟨v, rfl⟩
  | buffer | status | result | id => exact ⟨c, rfl⟩
  | ctrl =>
    refine ⟨c, ?_⟩
    cases hsrst : v.getLsbD 31 with
    | true => simp only [State.writeLocation_ctrl_of_srst _ hsrst, State.softReset_withCur hidle]
    | false => simp only [State.writeLocation_ctrl_of_not_srst _ hsrst]; rfl

theorem State.perform_withCur (x : Transaction) : ∃ c', (s.withCur c).perform x = (s.perform x).withCur c' := by
  cases htarget : target x.addr with
  | error e =>
    refine ⟨c, ?_⟩
    rw [State.perform_error htarget, State.perform_error htarget]
    cases x.we <;> rfl
  | location l =>
    cases hwe : x.we with
    | false =>
      refine ⟨c, ?_⟩
      rw [State.perform_read htarget hwe, State.perform_read htarget hwe]
      cases l <;> rfl
    | true =>
      obtain ⟨c', hwrite⟩ := State.writeLocation_withCur hidle c l x.wdata
      refine ⟨c', ?_⟩
      rw [State.perform_write htarget hwe, State.perform_write htarget hwe, hwrite]
      rfl

theorem State.hostMove_withCur : ∃ c', (s.withCur c).hostMove = s.hostMove.withCur c' := by
  obtain ⟨hpend, hmoved⟩ | ⟨x, rest, -, hheld, -⟩ | ⟨x, rest, hpend, hheld, hmoved⟩ := s.hostMove_cases
  · refine ⟨c, ?_⟩
    rw [hmoved, State.hostMove, show (s.withCur c).pending = [] from hpend]
  · cases (State.held_idle hidle x).symm.trans hheld
  · obtain ⟨c', hperform⟩ := State.perform_withCur (s := { s with pending := rest }) hidle c x
    refine ⟨c', ?_⟩
    rw [hmoved, ← hperform, State.hostMove, show (s.withCur c).pending = x :: rest from hpend]
    exact if_neg (ne_true_of_eq_false (State.held_idle hidle x))

theorem State.nextMove_withCur : (s.withCur c).nextMove = s.nextMove := by
  simp only [State.nextMove, State.withCur, hidle]

theorem State.age_of_idle : s.age = s := by simp only [State.age, hidle]

/-- A step from IDLE is the same under every CUR, but for CUR itself. -/
theorem step_withCur {t : State} (hstep : step s = .next t) : ∃ c', step (s.withCur c) = .next (t.withCur c') := by
  have hnext := State.nextMove_withCur hidle c
  obtain ⟨keep, hmove, rfl⟩ | ⟨hmove, rfl⟩ | ⟨hmove, -⟩ := step_cases hstep
  · refine ⟨c, ?_⟩
    rw [step_of_hardReset (hnext.trans hmove)]
    cases keep <;> rfl
  · obtain ⟨c', hhost⟩ := State.hostMove_withCur (s := s.beginStep) hidle c
    refine ⟨c', ?_⟩
    rw [step_of_host (hnext.trans hmove), State.age_of_idle (s := s.withCur c) hidle, State.age_of_idle hidle, ← hhost]
    rfl
  · cases hidle.symm.trans (State.busy_of_engine hmove)

end

/-- Settles O18: the step is the same under every CUR (`step_withCur`), but for the CUR it leaves. -/
theorem idleStepIgnoresCur : Obligations.IdleStepIgnoresCur := by
  intro s t c hidle hstep
  obtain ⟨c', hother⟩ := step_withCur hidle c hstep
  exact ⟨t.withCur c', hother, rfl⟩

/-! ### A host move while a command is in progress (R62, R64) -/

/-- The command in progress in `s` is still in progress in `t`: on the same operands, with nothing reported yet, and its
wait within T_MAX. -/
structure State.KeepsCommand (s t : State) : Prop where
  phase : t.phase = .busy
  bufs : t.bufs = s.bufs
  result : t.result = s.result
  cur : t.cur = s.cur
  err : t.status.err = s.status.err
  done : s.status.done = false → t.status.done = false
  waited : s.waited ≤ t.waited
  fits : s.waited ≤ Config.tMax s.cur → t.waited ≤ Config.tMax s.cur

theorem State.KeepsCommand.of_toArch {s t : State} (hbusy : s.phase = .busy) (harch : t.toArch = s.toArch)
    (hwaited : s.waited ≤ t.waited) (hfits : s.waited ≤ Config.tMax s.cur → t.waited ≤ Config.tMax s.cur) :
    s.KeepsCommand t where
  phase := (congrArg Arch.phase harch).trans hbusy
  bufs := congrArg Arch.bufs harch
  result := congrArg Arch.result harch
  cur := congrArg Arch.cur harch
  err := congrArg (·.status.err) harch
  done := (congrArg (·.status.done) harch).trans
  waited := hwaited
  fits := hfits

theorem State.KeepsCommand.trans {s t u : State} (hst : s.KeepsCommand t) (htu : t.KeepsCommand u) :
    s.KeepsCommand u where
  phase := htu.phase
  bufs := htu.bufs.trans hst.bufs
  result := htu.result.trans hst.result
  cur := htu.cur.trans hst.cur
  err := htu.err.trans hst.err
  done := htu.done ∘ hst.done
  waited := hst.waited.trans htu.waited
  fits := fun h => hst.cur ▸ htu.fits (hst.cur.symm ▸ hst.fits h)

/-- Beginning the host's step lets time pass, but not beyond T_MAX (R257). -/
theorem State.KeepsCommand.dequeued {s : State} (hbusy : s.phase = .busy) (hmove : s.nextMove = .host)
    (rest : List Transaction) : s.KeepsCommand (s.dequeued rest) := by
  refine State.KeepsCommand.of_toArch hbusy (s.dequeued_toArch rest) ?_ fun _ => State.age_waited_le hmove hbusy
  change s.waited ≤ s.age.waited
  rw [State.age_waited, if_pos hbusy]
  exact Nat.le_add_right _ _

theorem addr_of_target_ctrl {addr : Offset} (h : target addr = .location .ctrl) : addr = 0x800#12 := by
  rw [target_eq] at h
  split at h
  · obtain ⟨-, b, k, hmap⟩ | ⟨ha, -⟩ | ⟨-, hmap⟩ | ⟨-, hmap⟩ | ⟨-, hmap⟩ | ⟨-, hmap⟩ | ⟨-, hmap⟩ :=
      mapAligned_cases addr.toNat
    case inr.inl => exact BitVec.eq_of_toNat_eq ha
    all_goals cases hmap.symm.trans h
  · cases h

/-- A transaction that is not held while BUSY leaves the command in progress, or is a soft reset. -/
theorem State.perform_busy {s : State} (hbusy : s.phase = .busy) {x : Transaction} (hfree : s.held x = false) :
    s.KeepsCommand (s.perform x) ∨ (s.perform x).phase = .idle ∧ x.isSoftReset = true := by
  have unchanged {t : State} (harch : t.toArch = s.toArch) (hwaited : t.waited = s.waited) : s.KeepsCommand t :=
    State.KeepsCommand.of_toArch hbusy harch hwaited.ge fun hmax => hwaited ▸ hmax
  obtain ⟨e, -, hx⟩ | ⟨l, -, -, hx⟩ | ⟨l, hl, hwe, hx⟩ := s.perform_cases x <;> rw [hx]
  · exact .inl (unchanged (s.busError_toArch x.we) (by cases x.we <;> rfl))
  · exact .inl (unchanged rfl rfl)
  · have hnever : l.heldWhileBusy true = false := by
      simpa [State.held_location hl, State.isBusy, hbusy, hwe] using hfree
    cases l with
    | buffer | cmd => cases hnever
    | result | id => exact .inl (unchanged rfl rfl)
    | status =>
      exact .inl ⟨hbusy, rfl, rfl, rfl, rfl, fun hdone => by simp [State.writeLocation, hdone], le_rfl, id⟩
    | ctrl =>
      cases hsrst : x.wdata.getLsbD 31 with
      | true =>
        rw [State.writeLocation_ctrl_of_srst s hsrst]
        exact .inr ⟨rfl, by simp [Transaction.isSoftReset, hwe, addr_of_target_ctrl hl, hsrst]⟩
      | false =>
        rw [State.writeLocation_ctrl_of_not_srst s hsrst]
        exact .inl ⟨hbusy, rfl, rfl, rfl, rfl, id, le_rfl, id⟩

@[simp] theorem State.perform_schedule (s : State) (x : Transaction) : (s.perform x).schedule = s.schedule := by
  obtain ⟨e, -, hx⟩ | ⟨l, -, -, hx⟩ | ⟨l, -, -, hx⟩ := s.perform_cases x <;> rw [hx]
  · cases x.we <;> rfl
  · rfl
  · exact State.writeLocation_schedule s l x.wdata

theorem State.dequeued_self (s : State) : s.dequeued s.pending = s.age.beginStep := by
  simp only [State.dequeued, ← s.age_pending]
  rfl

@[simp] theorem State.dequeued_schedule (s : State) (rest : List Transaction) :
    (s.dequeued rest).schedule = s.schedule.tail := congrArg List.tail s.age_schedule

/-- The host's step, with nothing performed or with the outstanding transaction performed. -/
theorem step_host_cases {s : State} (hmove : s.nextMove = .host) :
    step s = .next (s.dequeued s.pending) ∨
      ∃ x rest, s.pending = x :: rest ∧ s.held x = false ∧ step s = .next ((s.dequeued rest).perform x) := by
  cases hpend : s.pending with
  | nil =>
    left
    rw [step_of_host hmove, ← hpend, s.dequeued_self, State.hostMove, State.beginStep_pending, State.age_pending, hpend]
  | cons x rest =>
    cases hheld : s.held x with
    | true => exact .inl (by rw [step_of_held hmove hpend hheld, ← hpend, s.dequeued_self])
    | false => exact .inr ⟨x, rest, rfl, hheld, step_of_not_held hmove hpend hheld⟩

/-- The host's step while BUSY: the command stays in progress, unless a soft reset is performed. -/
theorem step_host_busy {s : State} (hbusy : s.phase = .busy) (hmove : s.nextMove = .host) :
    ∃ t, step s = .next t ∧ t.schedule = s.schedule.tail ∧
      (s.KeepsCommand t ∧ t.pending ⊆ s.pending ∨ t.phase = .idle ∧ ∃ x ∈ s.pending, x.isSoftReset = true) := by
  obtain hstep | ⟨x, rest, hpend, hfree, hstep⟩ := step_host_cases hmove
  · exact ⟨_, hstep, by simp, .inl ⟨State.KeepsCommand.dequeued hbusy hmove _, List.Subset.refl _⟩⟩
  · refine ⟨_, hstep, by simp, ?_⟩
    have hfree' : (s.dequeued rest).held x = false := by simpa [State.held, State.isBusy] using hfree
    have hsub : ((s.dequeued rest).perform x).pending ⊆ s.pending := by simp [hpend]
    exact (State.perform_busy (by simpa using hbusy) hfree').imp
      (fun hkept => ⟨(State.KeepsCommand.dequeued hbusy hmove rest).trans hkept, hsub⟩)
      fun ⟨hidle, hreset⟩ => ⟨hidle, x, hpend ▸ List.mem_cons_self, hreset⟩

/-- Settles O17: of the three moves only the host's leaves GF8RS BUSY, and then it keeps the command (`step_host_busy`). -/
theorem noResultByteChangesWhileBusy : Obligations.NoResultByteChangesWhileBusy := by
  intro s t hbusy hstep hstill
  obtain ⟨keep, -, rfl⟩ | ⟨hmove, -⟩ | ⟨-, rfl⟩ := step_cases hstep
  · cases keep <;> cases hstill
  · obtain ⟨t', hstep', -, ⟨hkept, -⟩ | ⟨hidle, -⟩⟩ := step_host_busy hbusy hmove <;> cases hstep.symm.trans hstep'
    · exact ⟨congrFun₂ (State.readByte_congr hkept.bufs), hkept.result, hkept.cur, hkept.done, hkept.err⟩
    · cases hidle.symm.trans hstill
  · cases hstill

end Sys2Proof.Machine
end

section
/-!
PROOFS about runs: a command in progress completes within T_MAX (spec/70_reset_and_hazards.md R257), every outstanding
transaction gets a response (spec/60_exceptions.md R210), and a STATUS read after a CMD write sees the command in progress or
complete (spec/70_reset_and_hazards.md R256). Under every schedule with no hard reset the engine's turn comes, since the
schedule is finite.
-/
namespace Sys2Proof.Machine

/-! ### Runs -/

theorem run_succ {s t : State} (hstep : step s = .next t) (k : Nat) :
    Host.Core.run Sys2Proof.core (k + 1) s = Host.Core.run Sys2Proof.core k t := by
  have hcore : Sys2Proof.core.step s = .next t := hstep
  simp only [Host.Core.run, hcore]

theorem run_one {s t : State} (hstep : step s = .next t) : Host.Core.run Sys2Proof.core 1 s = .next t :=
  run_succ hstep 0

/-- A run can be extended by a step at its end. -/
theorem run_snoc {k : Nat} {s u t : State} (hrun : Host.Core.run Sys2Proof.core k s = .next u)
    (hstep : step u = .next t) : Host.Core.run Sys2Proof.core (k + 1) s = .next t := by
  induction k generalizing s with
  | zero =>
    obtain rfl : s = u := Host.Outcome.next.inj hrun
    exact run_one hstep
  | succ k ih =>
    obtain ⟨v, hv⟩ := everyStepAnswersNext s
    rw [run_succ hv] at hrun ⊢
    exact ih hrun

/-! ### The engine's turn comes (R257) -/

section
variable {s t : State}

theorem State.nextMove_ne_hardReset (h : s.noHardReset) (keep : Bool) : s.nextMove ≠ .hardReset keep := by
  intro hmove
  unfold State.nextMove at hmove
  split at hmove
  · next hsched => exact h _ (hsched ▸ List.mem_cons_self)
  all_goals
    repeat' split at hmove
    all_goals cases hmove

theorem State.noHardReset.tail (h : s.noHardReset) (hsched : t.schedule = s.schedule.tail) : t.noHardReset :=
  fun keep hmem => h keep (List.mem_of_mem_tail (hsched ▸ hmem))

theorem State.noHardReset.host_of_idle (h : s.noHardReset) (hidle : s.phase = .idle) : s.nextMove = .host :=
  State.host_of_idle hidle fun keep _ hsched => h keep (hsched ▸ List.mem_cons_self)

/-- While a property that keeps GF8RS BUSY survives every host step, the host's moves use up the schedule, and the engine's
turn comes. -/
theorem engine_turn_comes {P : State → Prop} (hbusy : ∀ u, P u → u.phase = .busy)
    (hhost : ∀ u, P u → u.nextMove = .host → ∃ v, step u = .next v ∧ P v ∧ v.schedule = u.schedule.tail)
    (hs : P s) (hreset : s.noHardReset) :
    ∃ (k : Nat) (u : State), k ≤ s.schedule.length ∧ Host.Core.run Sys2Proof.core k s = .next u ∧ P u ∧
      u.noHardReset ∧ u.nextMove = .engine := by
  induction hturns : s.schedule generalizing s with
  | nil => exact ⟨0, s, le_rfl, rfl, hs, hreset, State.engine_of_empty (hbusy s hs) hturns⟩
  | cons turn later ih =>
    cases hmove : s.nextMove with
    | hardReset keep => exact absurd hmove (State.nextMove_ne_hardReset hreset keep)
    | engine => exact ⟨0, s, Nat.zero_le _, rfl, hs, hreset, hmove⟩
    | host =>
      obtain ⟨v, hstep, hv, hsched⟩ := hhost s hs hmove
      obtain ⟨k, u, hk, hrun, hu⟩ := ih hv (hreset.tail hsched) (by rw [hsched, hturns, List.tail_cons])
      exact ⟨k + 1, u, Nat.succ_le_succ hk, (run_succ hstep k).trans hrun, hu⟩

end

/-- With no reset coming, the command in progress is still in progress when the engine's turn comes. -/
theorem engine_turn_comes_on_command {s : State} (hbusy : s.phase = .busy) (hhard : s.noHardReset)
    (hsoft : s.noSoftReset) : ∃ (k : Nat) (u : State), k ≤ s.schedule.length ∧
      Host.Core.run Sys2Proof.core k s = .next u ∧ s.KeepsCommand u ∧ u.nextMove = .engine := by
  have hstart : s.KeepsCommand s ∧ s.pending ⊆ s.pending :=
    ⟨State.KeepsCommand.of_toArch hbusy rfl le_rfl id, List.Subset.refl _⟩
  have hhost (u : State) : s.KeepsCommand u ∧ u.pending ⊆ s.pending → u.nextMove = .host →
      ∃ v, step u = .next v ∧ (s.KeepsCommand v ∧ v.pending ⊆ s.pending) ∧ v.schedule = u.schedule.tail := by
    intro ⟨hkept, hsub⟩ hmove
    obtain ⟨v, hstep, hsched, ⟨hkept', hsub'⟩ | ⟨-, x, hx, hreset⟩⟩ := step_host_busy hkept.phase hmove
    · exact ⟨v, hstep, ⟨hkept.trans hkept', List.Subset.trans hsub' hsub⟩, hsched⟩
    · cases (hsoft x (hsub hx)).symm.trans hreset
  obtain ⟨k, u, hk, hrun, ⟨hkept, -⟩, -, hengine⟩ :=
    engine_turn_comes (fun u ⟨hkept, _⟩ => hkept.phase) hhost hstart hhard
  exact ⟨k, u, hk, hrun, hkept, hengine⟩

theorem State.complete_bufs_congr {s t : State} (h : t.bufs = s.bufs) (e : Effect) :
    (t.complete e).bufs = (s.complete e).bufs := by
  obtain ⟨c, x⟩ := e
  cases x <;> simp [h]

theorem State.complete_result_congr {s t : State} (h : t.result = s.result) (e : Effect) :
    (t.complete e).result = (s.complete e).result := by
  obtain ⟨c, x⟩ := e
  cases x <;> simp [h]

/-- Settles O15: when the engine's turn comes the command is still in progress, on the same buffers. -/
theorem acceptedCommandCompletesWithinTMax : Obligations.AcceptedCommandCompletesWithinTMax := by
  intro s hbusy hmax hhard hsoft
  obtain ⟨k, u, hk, hrun, hkept, hengine⟩ := engine_turn_comes_on_command hbusy hhard hsoft
  have hstep := step_engine_completes hengine
  rw [hkept.cur, execute_congr s.cur hkept.bufs] at hstep
  refine ⟨k + 1, _, Nat.le_add_left 1 k, Nat.succ_le_succ hk, run_snoc hrun hstep, ?_, ?_, rfl, rfl, rfl,
    fun hcode => ?_, State.complete_bufs_congr (t := u.beginStep) hkept.bufs _,
    State.complete_result_congr (t := u.beginStep) hkept.result _⟩
  · simpa using hkept.waited
  · simpa using hkept.fits hmax
  · simp [hcode]

/-! ### Every transaction gets a response (R210, R60) -/

section
variable {s t : State}

theorem State.complete_toArch_congr (h : t.toArch = s.toArch) (e : Effect) :
    (t.complete e).toArch = (s.complete e).toArch := by
  obtain ⟨c, x⟩ := e
  cases x <;> simp only [State.complete, State.applyWrites, State.writeBytes, h]

theorem State.writeLocation_toArch_congr (h : t.toArch = s.toArch) (hd : t.draws = s.draws) (l : Location) (v : Word) :
    (t.writeLocation l v).toArch = (s.writeLocation l v).toArch := by
  cases l with
  | buffer | status | cmd | result | id =>
    simp only [State.writeLocation, State.writeBytes, State.writeStatus, State.accept, h]
  | ctrl =>
    cases hsrst : v.getLsbD 31 with
    | true => simpa only [State.writeLocation_ctrl_of_srst _ hsrst] using State.softReset_toArch_congr h hd
    | false => simp only [State.writeLocation_ctrl_of_not_srst _ hsrst, State.writeCtrl, h]

/-- What a transaction does and returns depends on the state of GF8RS, and on the draw of an Err read's data. -/
theorem State.perform_congr (h : t.toArch = s.toArch) (hd : t.draws = s.draws) (x : Transaction) :
    (t.perform x).response = (s.perform x).response ∧ (t.perform x).toArch = (s.perform x).toArch := by
  cases htarget : target x.addr with
  | error e =>
    rw [State.perform_error htarget, State.perform_error htarget]
    refine ⟨?_, by simp [h]⟩
    cases x.we <;> simp [State.busError, hd]
  | location l =>
    cases hwe : x.we with
    | false =>
      rw [State.perform_read htarget hwe, State.perform_read htarget hwe, State.readLocation_congr h]
      exact ⟨rfl, h⟩
    | true =>
      rw [State.perform_write htarget hwe, State.perform_write htarget hwe]
      exact ⟨rfl, State.writeLocation_toArch_congr h hd l x.wdata⟩

variable {x : Transaction} {rest : List Transaction}

/-- The engine's step, and after it the outstanding transaction's. -/
theorem run_completion_then_perform (hengine : s.nextMove = .engine) (hreset : s.noHardReset)
    (hpend : s.pending = x :: rest) : ∃ u t, step s = .next u ∧ step u = .next t ∧
      u.toArch = (s.complete (execute s.cur s)).toArch ∧ u.pending = x :: rest ∧ t.pending = rest ∧
      t.response.isSome = true ∧ t.response = (u.perform x).response ∧ t.toArch = (u.perform x).toArch := by
  have hidle : (s.beginStep.complete (execute s.cur s)).phase = .idle := rfl
  have hmove := State.noHardReset.host_of_idle (hreset.tail (State.complete_schedule s.beginStep _)) hidle
  have hpend' : (s.beginStep.complete (execute s.cur s)).pending = x :: rest := by simpa using hpend
  exact ⟨_, _, step_engine_completes hengine, step_of_not_held hmove hpend' (State.held_idle hidle x),
    State.complete_toArch_congr (s := s) (t := s.beginStep) rfl _, hpend', State.perform_pending _ x,
    State.perform_response_isSome _ x,
    State.perform_congr (State.dequeued_toArch _ rest) (State.dequeued_draws _ rest) x⟩

end

/-- A held transaction changes nothing until the engine's turn comes. -/
theorem engine_turn_comes_on_held {s : State} {x : Transaction} {rest : List Transaction} (hheld : s.held x = true)
    (hpend : s.pending = x :: rest) (hreset : s.noHardReset) : ∃ (k : Nat) (u : State), k ≤ s.schedule.length ∧
      Host.Core.run Sys2Proof.core k s = .next u ∧ (u.toArch = s.toArch ∧ u.pending = x :: rest) ∧ u.noHardReset ∧
      u.nextMove = .engine := by
  have ⟨hbusy, hwaits⟩ := (s.held_iff x).1 hheld
  refine engine_turn_comes (P := fun u => u.toArch = s.toArch ∧ u.pending = x :: rest)
    (fun u ⟨harch, _⟩ => harch ▸ hbusy) ?_
    ⟨rfl, hpend⟩ hreset
  intro u ⟨harch, hpend'⟩ hmove
  have hheld' : u.held x = true := (u.held_iff x).2 ⟨harch ▸ hbusy, hwaits⟩
  exact ⟨_, step_of_held hmove hpend' hheld', ⟨u.toArch_age.trans harch, u.age_pending.trans hpend'⟩,
    congrArg List.tail u.age_schedule⟩

/-- A held transaction is performed in the step after the completion, against the state that the completion leaves. -/
theorem run_held_then_perform {s : State} {x : Transaction} {rest : List Transaction} (hheld : s.held x = true)
    (hpend : s.pending = x :: rest) (hreset : s.noHardReset) : ∃ (k : Nat) (u t : State), k ≤ s.schedule.length ∧
      Host.Core.run Sys2Proof.core (k + 1) s = .next u ∧ Host.Core.run Sys2Proof.core (k + 2) s = .next t ∧
      u.toArch = (s.complete (execute s.cur s)).toArch ∧ u.pending = x :: rest ∧ t.pending = rest ∧
      t.response.isSome = true ∧ t.response = (u.perform x).response ∧ t.toArch = (u.perform x).toArch := by
  obtain ⟨k, v, hk, hrun, ⟨harch, hpendv⟩, hresetv, hengine⟩ := engine_turn_comes_on_held hheld hpend hreset
  obtain ⟨u, t, hstep, hstep', hdone, hperformed⟩ := run_completion_then_perform hengine hresetv hpendv
  refine ⟨k, u, t, hk, run_snoc hrun hstep, run_snoc (run_snoc hrun hstep) hstep', ?_, hperformed⟩
  rw [hdone, State.complete_toArch_congr harch, harch, execute_congr (s := s) s.cur (by rw [harch])]

/-- Settles O16: a transaction that is not held is performed at the host's next move, which comes at the latest after the
engine's; one that is held, by `run_held_then_perform`. -/
theorem everyTransactionGetsAResponse : Obligations.EveryTransactionGetsAResponse := by
  intro s x rest hpend hreset
  cases hheld : s.held x with
  | true =>
    obtain ⟨k, u, t, hk, hrun, hrun', hdone, hupend, hrest, hsome, hresp, hperformed⟩ :=
      run_held_then_perform hheld hpend hreset
    have hcompleted : s.completedFrom u (execute s.cur s).code := by
      unfold State.completedFrom
      rw [hdone]
      exact s.completedFrom_complete _
    exact ⟨k + 2, t, by omega, by omega, hrun', hrest, hsome, fun _ _ => ⟨k + 1, u, by omega, hrun, hcompleted,
      by rw [hdone], by rw [hdone], by rw [hdone, State.complete_ctrl], hupend, hresp, hperformed⟩⟩
  | false =>
    have hfree : ¬ (s.phase = .busy ∧ x.waitsForIdle) := mt (s.held_iff x).2 (ne_true_of_eq_false hheld)
    cases hmove : s.nextMove with
    | hardReset keep => exact absurd hmove (State.nextMove_ne_hardReset hreset keep)
    | host =>
      exact ⟨1, _, le_rfl, by omega, run_one (step_of_not_held hmove hpend hheld), State.perform_pending _ x,
        State.perform_response_isSome _ x, fun hbusy hx => absurd ⟨hbusy, hx⟩ hfree⟩
    | engine =>
      obtain ⟨u, t, hstep, hstep', -, -, hrest, hsome, -⟩ := run_completion_then_perform hmove hreset hpend
      exact ⟨2, t, by omega, by omega, (run_succ hstep 1).trans (run_one hstep'), hrest, hsome,
        fun hbusy hx => absurd ⟨hbusy, hx⟩ hfree⟩

/-! ### A STATUS read after a CMD write (R256) -/

section
variable {s : State} {v w : Word} {rest : List Transaction}

theorem step_statusRead (hmove : s.nextMove = .host) (hpend : s.pending = ⟨false, 0x804#12, v⟩ :: rest) :
    ∃ t, step s = .next t ∧ t.pending = rest ∧ t.response = some (.okRead s.statusWord) :=
  ⟨_, step_read_of_never_held hmove hpend (l := .status) (by decide) rfl, rfl, rfl⟩

/-- The state after the accepted CMD write `w`, in so far as it matters to the read. -/
structure State.Accepts (s : State) (w : Word) (rest : List Transaction) (t : State) : Prop where
  phase : t.phase = .busy
  cur : t.cur = w
  done : t.status.done = false
  err : t.status.err = 0
  bufs : t.bufs = s.bufs
  waited : t.waited = 0
  pending : t.pending = rest
  schedule : t.schedule = s.schedule.tail

theorem step_cmdWrite_accepts (hidle : s.phase = .idle) (hmove : s.nextMove = .host)
    (hpend : s.pending = ⟨true, 0x808#12, w⟩ :: rest) : ∃ t, step s = .next t ∧ s.Accepts w rest t :=
  ⟨_, step_cmdWrite_idle hmove hpend hidle, rfl, rfl, rfl, rfl, by simp, rfl, rfl, by simp⟩

variable {t : State} (haccepts : s.Accepts w (⟨false, 0x804#12, v⟩ :: rest) t)
include haccepts

/-- The host's move next: the read sees the command in progress. -/
theorem statusRead_in_progress (hmove : t.nextMove = .host) :
    ∃ u x, step t = .next u ∧ u.pending = rest ∧ u.response = some (.okRead x) ∧
      x.getLsbD 0 = true ∧ x.getLsbD 1 = false ∧ x.extractLsb' 4 4 = 0 := by
  obtain ⟨u, hstep, hrest, hresp⟩ := step_statusRead hmove haccepts.pending
  refine ⟨u, _, hstep, hrest, hresp, ?_, ?_, ?_⟩
  · rw [State.getLsbD_statusWord_zero, State.isBusy, haccepts.phase]
    rfl
  · rw [State.getLsbD_statusWord_one, haccepts.done]
  · rw [State.extractLsb'_statusWord_err, haccepts.err]

/-- The engine's move next, and then the host's: the read sees the command complete. -/
theorem statusRead_complete (hmove : t.nextMove = .engine)
    (hturn : ∀ keep later, t.schedule.tail ≠ .hardReset keep :: later) :
    ∃ u x, Host.Core.run Sys2Proof.core 2 t = .next u ∧ u.pending = rest ∧ u.response = some (.okRead x) ∧
      x.getLsbD 0 = false ∧ x.getLsbD 1 = true ∧ x.extractLsb' 4 4 = (execute w s).code.bits := by
  have hstep := step_engine_completes hmove
  rw [haccepts.cur, execute_congr w haccepts.bufs] at hstep
  obtain ⟨u, hstep', hrest, hresp⟩ := step_statusRead (s := t.beginStep.complete (execute w s)) (v := v) (rest := rest)
    (State.host_of_idle rfl (by simpa using hturn)) (by simpa using haccepts.pending)
  refine ⟨u, _, (run_succ hstep 1).trans (run_one hstep'), hrest, hresp, ?_, ?_, ?_⟩
  · exact State.getLsbD_statusWord_zero _
  · exact State.getLsbD_statusWord_one _
  · exact State.extractLsb'_statusWord_err _

end

/-- Settles O19: after the acceptance the schedule gives the read before the completion or right after it, and either order
by its entries. -/
theorem statusReadSeesBusyOrComplete : Obligations.StatusReadSeesBusyOrComplete := by
  intro s w v rest hidle hpend
  refine ⟨fun hreset => ?_, fun c c' later hmax => ⟨?_, ?_⟩⟩
  · obtain ⟨t, hstep, haccepts⟩ := step_cmdWrite_accepts hidle (hreset.host_of_idle hidle) hpend
    have hresett : t.noHardReset := hreset.tail haccepts.schedule
    cases hmove : t.nextMove with
    | hardReset keep => exact absurd hmove (State.nextMove_ne_hardReset hresett keep)
    | host =>
      obtain ⟨u, x, hstep', hrest, hresp, hword⟩ := statusRead_in_progress haccepts hmove
      exact ⟨2, u, x, .inl rfl, (run_succ hstep 1).trans (run_one hstep'), hrest, hresp, .inl hword⟩
    | engine =>
      obtain ⟨u, x, hrun, hrest, hresp, hword⟩ := statusRead_complete haccepts hmove fun keep later hturn =>
        hresett keep (List.mem_of_mem_tail (hturn ▸ List.mem_cons_self))
      exact ⟨3, u, x, .inr rfl, (run_succ hstep 2).trans hrun, hrest, hresp, .inr hword⟩
  · obtain ⟨t, hstep, haccepts⟩ := step_cmdWrite_accepts
      (s := { s with schedule := .host c :: .host c' :: later }) hidle (State.host_of_idle hidle (by simp)) hpend
    obtain ⟨u, x, hstep', -, hresp, hword⟩ := statusRead_in_progress haccepts
      (State.host_of_fits haccepts.schedule (by rw [haccepts.waited, haccepts.cur, Nat.zero_add]; exact hmax))
    exact ⟨u, x, (run_succ hstep 1).trans (run_one hstep'), hresp, hword⟩
  · obtain ⟨t, hstep, haccepts⟩ := step_cmdWrite_accepts
      (s := { s with schedule := .host c :: .engine :: .host c' :: later }) hidle (State.host_of_idle hidle (by simp)) hpend
    obtain ⟨u, x, hrun, -, hresp, hbusyBit, hdoneBit, hcode⟩ := statusRead_complete haccepts
      (State.engine_of_turn haccepts.phase haccepts.schedule) (by simp [haccepts.schedule])
    exact ⟨u, x, (run_succ hstep 2).trans hrun, hresp, hbusyBit, hdoneBit, hcode.trans (congrArg (·.code.bits)
      (execute_congr w rfl))⟩

end Sys2Proof.Machine
end

section
/-!
PROOFS of the units: division (spec/40_field_arithmetic.md R121), the lanes of ENCODE (spec/41_polynomial_evaluation.md R144),
the survivors of DECODE (spec/43_decoder.md R181, R184), and the solver's values with and without a pivot fault, under every
`pol` (spec/42_linear_solver.md R166, R167).
-/
namespace Sys2Proof.Machine

/-! ### Division (R121) -/

/-- Where the inverse check holds, a quotient by `a`, times `a`, is the dividend, under every `pol`. -/
theorem gfMul_quotient_of_invOk {a pol : Byte} (h : invOk a pol = true) (b : Byte) :
    gfMul a (gfMul b (gfInv a pol) pol) pol = b := by
  rw [gfMul_comm b, ← gfMul_assoc, (invOk_eq_true_iff a pol).1 h, gfMul_comm]
  exact gfMul_one b pol

/-- Settles O33: `gf_inv(0)` is 0, and the check makes `gf_inv(b)` an inverse of `b`. -/
theorem fieldDivision : Obligations.FieldDivision := by
  refine ⟨fun a pol => ?_, fun a b pol h => ?_⟩
  · exact (congrArg (gfMul a · pol) (gfInv_zero pol)).trans (gfMul_zero a pol)
  · rw [gfMul_assoc, (invOk_eq_true_iff b pol).1 h]
    exact gfMul_one a pol

/-! ### The lanes of ENCODE (R144) -/

/-- Settles O40: each symbol is the Horner value of the message at its own point (O39). -/
theorem encodeLanesAreIndependent : Obligations.EncodeLanesAreIndependent := by
  intro L N N' i j pol s s' t t' hL hN hN' hi hj hmsg hpoint hexec hexec'
  have hsymbol {M k : Nat} {u v : State} (hM : M ≤ 256) (hk : k < M) (h : exec (.encode L M pol) u = .next v) :
      v.readByte .sym k = horner (u.elements .msg L) (u.readByte .pts k) pol := by
    obtain ⟨v', hv', -, -, -, hwritten, -⟩ := exec_encode_symbols pol u hL hM
    cases h.symm.trans hv'
    exact hwritten k hk
  have hmessage : s.elements .msg L = s'.elements .msg L :=
    List.map_congr_left fun k hk => hmsg k (List.mem_range.1 hk)
  rw [hsymbol hN hi hexec, hsymbol hN' hj hexec', hmessage, hpoint]

/-! ### The survivors (R181, R184) -/

/-- Settles O46: `survivors` filters the rising list of the positions below N. -/
theorem survivorsAreUnerasedPositions : Obligations.SurvivorsAreUnerasedPositions := by
  refine fun s N => ⟨fun p => ?_, List.pairwise_lt_range.filter _⟩
  rw [State.survivors, List.mem_filter, List.mem_range, Bool.not_eq_true']

/-- Settles O48: equal ERASE bits give the same checks and the same chosen positions, and the solver gets what stands there.
Beyond 256 symbols DECODE reads nothing. -/
theorem decodeUsesOnlyChosenSurvivors : Obligations.DecodeUsesOnlyChosenSurvivors := by
  intro L N pol s s' herase hchosen
  change decodeEffect L N pol s = decodeEffect L N pol s'
  obtain hN | hN := Nat.lt_or_ge 256 N
  · rw [decodeEffect_length pol hN, decodeEffect_length pol hN]
  · have hbits (p : Nat) (hp : p < Config.bufSize) : s.eraseBit p = s'.eraseBit p := herase p (Nat.le_of_lt_succ hp)
    have hsurv : s'.survivors N = s.survivors N := (State.survivors_eq_of_agree hbits hN).symm
    have hpts : s.elementsAt .pts (s.chosen L N) = s'.elementsAt .pts (s.chosen L N) :=
      List.map_congr_left fun p hp => (hchosen p hp).1
    have hsym : s.elementsAt .sym (s.chosen L N) = s'.elementsAt .sym (s.chosen L N) :=
      List.map_congr_left fun p hp => (hchosen p hp).2
    unfold decodeEffect
    rw [hpts, hsym, State.chosen, State.chosen, hsurv, State.eraseOutOfRange_eq_of_agree hbits]

/-! ### A solve without a pivot fault, under every `pol` (R166) -/

/-- The first `t` columns are 0 off the diagonal. -/
def WorkMatrix.clearedUpTo (w : WorkMatrix) (n t : Nat) : Prop :=
  ∀ j m, j < n → m < t → j ≠ m → w.entry j m = 0

section
variable {n t : Nat} {ps vs : List Byte} {pol : Byte}

/-- With the fault bit clear every diagonal element passes the check, at its pivot step and at the division (R164). -/
theorem invOk_of_no_fault (h : (gjSolve n ps vs pol).2 = false) {i : Nat} (hi : i < n) :
    invOk ((solverMatrix n ps vs pol i).entry i i) pol = true ∧
      invOk ((solverMatrix n ps vs pol n).entry i i) pol = true := by
  have hnone := mt (gjSolve_pf_iff n ps vs pol).2 (ne_true_of_eq_false h)
  push Not at hnone
  simpa using hnone i hi

/-- A pivot that passes the check clears its column, whether or not `P_pol` is irreducible. -/
theorem solverMatrix_clearedUpTo (h : (gjSolve n ps vs pol).2 = false) (ht : t ≤ n) :
    (solverMatrix n ps vs pol t).clearedUpTo n t := by
  induction t with
  | zero => exact fun _ _ _ hm => absurd hm (Nat.not_lt_zero _)
  | succ t ih =>
    intro j m hj hm hjm
    have hcleared := ih (Nat.le_of_succ_le ht)
    rw [solverMatrix_succ_entry ps vs pol ht hj (hm.le.trans ht)]
    obtain hlt | rfl := Nat.lt_succ_iff_lt_or_eq.1 hm
    · rw [hcleared j m hj hlt hjm, hcleared t m ht hlt hlt.ne', ite_eq_left_iff]
      intro _
      exact (congrArg (gfAdd 0) (gfMul_zero _ pol)).trans (zero_gfAdd 0)
    · obtain ⟨hpivot, -⟩ := invOk_of_no_fault h (i := m) ht
      rw [if_neg hjm, gfMul_comm (gfMul _ _ _), gfMul_quotient_of_invOk hpivot]
      exact gfAdd_self _

/-- Coefficients satisfy equation `j` exactly when they are a zero of row `j` of the augmented matrix. -/
theorem rowSum_vandermonde_eq_zero_iff {cs : List Byte} (hlen : cs.length = n) {j : Nat} (hj : j < n) :
    (vandermonde n ps vs pol).rowSum n pol (solutionVector pol cs) j = 0 ↔ horner cs (ps.getD j 0) pol = vs.getD j 0 := by
  subst hlen
  have hcoeffs : ∑ m ∈ Finset.range cs.length,
      residue pol ((vandermonde cs.length ps vs pol).entry j m) * solutionVector pol cs m =
        residue pol (horner cs (ps.getD j 0) pol) := by
    rw [residue_horner]
    refine Finset.sum_congr rfl fun m hm => ?_
    have hm := Finset.mem_range.1 hm
    rw [residue_vandermonde_entry ps vs pol hj hm, solutionVector_of_lt pol hm, mul_comm]
  rw [WorkMatrix.rowSum, Finset.sum_range_succ, hcoeffs, vandermonde_entry_value ps vs pol hj, solutionVector_last,
    mul_one, ← residue_gfAdd, residue_eq_zero_iff]
  exact BitVec.xor_eq_zero_iff

/-- The quotients of R163 are a zero of every row of the matrix they are taken from. -/
theorem rowSum_solverMatrix_gjSolve (h : (gjSolve n ps vs pol).2 = false) {j : Nat} (hj : j < n) :
    (solverMatrix n ps vs pol n).rowSum n pol (solutionVector pol (gjSolve n ps vs pol).1) j = 0 := by
  have hlen := gjSolve_length n ps vs pol
  have hlast : solutionVector pol (gjSolve n ps vs pol).1 n = 1 := by
    rw [← solutionVector_last pol (gjSolve n ps vs pol).1, hlen]
  have hother : ∀ m ∈ Finset.range n, m ≠ j → residue pol ((solverMatrix n ps vs pol n).entry j m) *
      solutionVector pol (gjSolve n ps vs pol).1 m = 0 := fun m hm hmj => by
    rw [solverMatrix_clearedUpTo h le_rfl j m hj (Finset.mem_range.1 hm) hmj.symm]
    exact (congrArg (· * _) (residue_zero pol)).trans (zero_mul _)
  obtain ⟨-, hdiag⟩ := invOk_of_no_fault h hj
  rw [WorkMatrix.rowSum, Finset.sum_range_succ, Finset.sum_eq_single_of_mem j (Finset.mem_range.2 hj) hother, hlast,
    mul_one, solutionVector_of_lt pol (hj.trans_eq hlen.symm), gjSolve_getD ps vs pol hj, ← residue_gfMul,
    gfMul_quotient_of_invOk hdiag, residue_add_self]

/-- Without a pivot fault the coefficients satisfy every equation: the pivot steps keep the zeros of the rows. -/
theorem horner_gjSolve (h : (gjSolve n ps vs pol).2 = false) {j : Nat} (hj : j < n) :
    horner (gjSolve n ps vs pol).1 (ps.getD j 0) pol = vs.getD j 0 :=
  (rowSum_vandermonde_eq_zero_iff (gjSolve_length n ps vs pol) hj).1
    ((rowSum_solverMatrix_zero_iff ps vs pol _ le_rfl le_rfl).1 (fun _ hi => rowSum_solverMatrix_gjSolve h hi) j hj)

end

/-- Settles O43: equation by equation, `horner_gjSolve`. -/
theorem solutionWithoutPivotFaultIsExact : Obligations.SolutionWithoutPivotFaultIsExact := by
  intro n ps vs pol _ hps hvs h
  refine List.ext_getElem (by rw [List.length_map, hps, hvs]) fun j hj hj' => ?_
  rw [List.length_map] at hj
  have hsol := horner_gjSolve h (j := j) (hj'.trans_eq hvs)
  rw [List.getD_eq_getElem _ _ hj, List.getD_eq_getElem _ _ hj'] at hsol
  rw [List.getElem_map, hsol]

/-- Settles O42: a regular system has no pivot fault, so its coefficients are exact (O43), and no others are. -/
theorem regularSystemsAreSolved : Obligations.RegularSystemsAreSolved := by
  intro n ps vs pol hn hps hvs hpol hdistinct
  have hfault : (gjSolve n ps vs pol).2 = false := gjSolve_pf_eq_false vs hpol hps hdistinct
  refine ⟨hfault, solverMatrix_diagonalUpTo vs hpol hps hdistinct le_rfl,
    solutionWithoutPivotFaultIsExact n ps vs pol hn hps hvs hfault, ?_⟩
  rintro cs rfl rfl
  rw [gjSolve_eq_of_solution hpol hdistinct hps]

/-! ### Duplicate points (R167) -/

section
variable {n : Nat} (ps vs vs' : List Byte) (pol : Byte)

/-- The first `n` columns, and so the pivots, do not depend on the values. -/
theorem solverMatrix_entry_eq_of_values {t j m : Nat} (ht : t ≤ n) (hj : j < n) (hm : m < n) :
    (solverMatrix n ps vs pol t).entry j m = (solverMatrix n ps vs' pol t).entry j m := by
  induction t generalizing j m with
  | zero => exact (vandermonde_entry ps vs pol hj hm).trans (vandermonde_entry ps vs' pol hj hm).symm
  | succ t ih =>
    have hle : t ≤ n := Nat.le_of_succ_le ht
    rw [solverMatrix_succ_entry ps vs pol ht hj hm.le, solverMatrix_succ_entry ps vs' pol ht hj hm.le, ih hle hj hm,
      ih hle hj ht, ih hle ht ht, ih hle ht hm]

theorem gjSolve_pf_eq_of_values : (gjSolve n ps vs pol).2 = (gjSolve n ps vs' pol).2 := by
  rw [Bool.eq_iff_iff, gjSolve_pf_iff, gjSolve_pf_iff]
  refine exists_congr fun i => and_congr_right fun hi => ?_
  rw [solverMatrix_entry_eq_of_values ps vs vs' pol hi.le hi hi, solverMatrix_entry_eq_of_values ps vs vs' pol le_rfl hi hi]

/-- Two equal points make a pivot fault: else the system would be solved for every list of values, and so for one that asks
1 at the first of them and 0 at the second. -/
theorem gjSolve_pf_of_duplicate {i j : Nat} (hij : i < j) (hj : j < n) (hdup : ps.getD i 0 = ps.getD j 0) :
    (gjSolve n ps vs pol).2 = true := by
  by_contra hfault
  have hfault' : (gjSolve n ps (List.replicate i 0 ++ [1]) pol).2 = false := by
    rw [gjSolve_pf_eq_of_values ps _ vs pol]
    exact eq_false_of_ne_true hfault
  have hfirst : (List.replicate i (0 : Byte) ++ [1]).getD i 0 = 1 := by simp [List.getD_eq_getElem?_getD]
  have hsecond : (List.replicate i (0 : Byte) ++ [1]).getD j 0 = 0 := List.getD_eq_default _ _ (by simp; omega)
  have hvalue := horner_gjSolve hfault' (hij.trans hj)
  rw [hdup, horner_gjSolve hfault' hj, hfirst, hsecond] at hvalue
  exact absurd hvalue (by decide)

end

@[simp] theorem one_gfMul (a pol : Byte) : gfMul 1#8 a pol = a := (gfMul_comm _ _ _).trans (gfMul_one a pol)

@[simp] theorem gfAdd_zero (a : Byte) : gfAdd a 0#8 = a := BitVec.xor_zero

@[simp] theorem invOk_one (pol : Byte) : invOk 1#8 pol = true := by simp [invOk]

theorem eliminate_one (p v pol : Byte) :
    eliminate 1 pol ⟨vandermonde 1 [p] [v] pol, false⟩ = ⟨[[1, v]], false⟩ := by
  simp [eliminate, pivotStep, pivotRow, vandermonde, vandermondeRow, powersFrom, WorkMatrix.entry, WorkMatrix.row,
    List.range_succ]

theorem gjSolve_one (p v pol : Byte) : gjSolve 1 [p] [v] pol = ([v], false) := by
  simp [gjSolve, eliminate_one, divideDiagonal, diagonalFaults, WorkMatrix.entry, WorkMatrix.row, List.range_succ]

/-- Settles O44: `gjSolve_pf_of_duplicate` for the code; with no equation nothing is written, and with one the matrix is its
one row `1, V[0]`. -/
theorem duplicatePointsAreSingular : Obligations.DuplicatePointsAreSingular := by
  obtain ⟨hsolve, -⟩ := solveWritesCoefficients
  refine ⟨fun n pol s i j _ hij hj hdup => ?_, fun pol s => ?_, fun pol s => ?_⟩
  · obtain ⟨t, hexec, ⟨herr, -, herrs, -⟩, -⟩ := hsolve n pol s
    have hpoints : (s.elements .pts n).getD i 0 = (s.elements .pts n).getD j 0 := by
      rw [State.elements_getD s .pts (hij.trans hj), State.elements_getD s .pts hj, hdup]
    rw [gjSolve_pf_of_duplicate _ _ pol hij hj hpoints] at herr herrs
    exact ⟨t, hexec, herr, herrs.trans (Bool.or_true _)⟩
  · obtain ⟨t, hexec, hdone, houtside, hresult, -, hkept, hother⟩ := hsolve 0 pol s
    refine ⟨t, hexec, hdone, houtside, fun b k => ?_, hresult⟩
    by_cases hb : b = .out
    · exact hb ▸ hkept k (Nat.zero_le k)
    · exact hother b hb k
  · have hone : gjSolve 1 (s.elements .pts 1) (s.elements .sym 1) pol = ([s.readByte .sym 0], false) :=
      gjSolve_one _ _ pol
    refine exec_completesWithBytes (vs := [s.readByte .sym 0]) ?_ rfl fun k hk => ?_
    · rw [effectOf, solveEffect, solveOutcome, hone]
      rfl
    · rw [Nat.lt_one_iff.1 hk]
      rfl

/-! ### A solve whose pivot faults (R167) -/

/-- With a zero factor the row stays as it was. -/
theorem eliminateRow_zero (pol : Byte) {row pivot : List Byte} (h : row.length = pivot.length) :
    eliminateRow 0 pol row pivot = row := by
  refine List.ext_getElem (by simp [eliminateRow, h]) fun k hk hk' => ?_
  simp [eliminateRow]

theorem WorkMatrix.row_length {w : WorkMatrix} {n j : Nat} (hw : ∀ r ∈ w, r.length = n + 1) (hj : j < w.length) :
    (w.row j).length = n + 1 := by
  rw [WorkMatrix.row, List.getD_eq_getElem _ _ hj]
  exact hw _ (List.getElem_mem hj)

theorem WorkMatrix.ext_row {w w' : WorkMatrix} (hlen : w.length = w'.length)
    (h : ∀ j, j < w'.length → w.row j = w'.row j) : w = w' := by
  refine List.ext_getElem hlen fun j hj hj' => ?_
  rw [← List.getD_eq_getElem w [] hj, ← List.getD_eq_getElem w' [] hj']
  exact h j hj'

/-- A zero pivot has 0 for its inverse, so every factor of its step is 0. -/
theorem pivotStep_of_zero_pivot {n i : Nat} (pol : Byte) {k : Work} (hi : i < n) (hlen : k.w.length = n)
    (hrows : ∀ r ∈ k.w, r.length = n + 1) (hzero : k.w.entry i i = 0) :
    (pivotStep n pol k i).w = k.w ∧ (pivotStep n pol k i).pf = true := by
  constructor
  · refine WorkMatrix.ext_row (by rw [pivotStep_length, hlen]) fun j hj => ?_
    have hfactor : gfMul (k.w.entry j i) (gfInv (k.w.entry i i) pol) pol = 0 := by simp [hzero]
    have heq : (k.w.row j).length = (k.w.row i).length := by
      rw [WorkMatrix.row_length hrows hj, WorkMatrix.row_length hrows (hi.trans_eq hlen.symm)]
    rw [pivotStep_row pol k i (hj.trans_eq hlen), pivotRow, hfactor, eliminateRow_zero pol heq, ite_self]
  · rw [pivotStep_pf_iff, hzero]
    exact .inr (invOk_zero pol)

/-- Every power of the point 0 but the first is 0. -/
theorem powersFrom_zero (pol : Byte) (n : Nat) : powersFrom 0 pol n 0 = List.replicate n 0 := by
  induction n with
  | zero => rfl
  | succ n ih => rw [powersFrom, List.replicate_succ, show gfMul 0 0 pol = 0 from gfMul_zero 0 pol, ih]

/-- The first example of R167: equal points leave a zero pivot in the second row. -/
theorem eliminate_duplicate_example (pol : Byte) :
    eliminate 2 pol ⟨vandermonde 2 [0x05, 0x05] [0x11, 0x22] pol, false⟩ =
      ⟨[[0x01, 0x05, 0x11], [0x00, 0x00, 0x33]], true⟩ := by
  simp [eliminate, pivotStep, pivotRow, eliminateRow, vandermonde, vandermondeRow, powersFrom, WorkMatrix.entry,
    WorkMatrix.row, List.range_succ, show gfAdd 0x22#8 0x11#8 = 0x33#8 from rfl]

/-- Under `pol = 0` the inverse of 02 is 0. -/
theorem gfInv_two_under_zero : gfInv 2#8 0#8 = 0#8 := by decide

/-- The second: the pivot 02 fails its check. -/
theorem eliminate_nilpotent_example (a b : Byte) :
    eliminate 2 0 ⟨vandermonde 2 [0x00, 0x02] [a, b] 0, false⟩ = ⟨[[0x01, 0x00, a], [0x00, 0x02, gfAdd b a]], true⟩ := by
  simp [eliminate, pivotStep, pivotRow, eliminateRow, vandermonde, vandermondeRow, powersFrom, WorkMatrix.entry,
    WorkMatrix.row, List.range_succ, gfInv_two_under_zero, invOk]

/-- When `gj_solve` faults, SOLVE writes its coefficients with code 6 (R165). -/
theorem exec_solve_singular {n : Nat} {pol : Byte} {s : State} {C : List Byte}
    (h : gjSolve n (s.elements .pts n) (s.elements .sym n) pol = (C, true)) :
    ∃ t, exec (.solve n pol) s = .next t ∧ s.completesWithBytes t .singular .out n fun i => C.getD i 0 := by
  obtain ⟨hsolve, -⟩ := solveWritesCoefficients
  simpa [h] using hsolve n pol s

theorem State.elements_two (s : State) (b : Buf) : s.elements b 2 = [s.readByte b 0, s.readByte b 1] := rfl

/-- Settles O54: the zero pivot and the zero diagonal element by the inverse of 0, and the examples from their matrices. -/
theorem faultingSolveValues : Obligations.FaultingSolveValues := by
  refine ⟨fun n i pol k hi hlen hrows hzero => pivotStep_of_zero_pivot pol hi hlen hrows hzero,
    fun n i pol w hi hzero => ⟨?_, ?_⟩, fun n pol v => ?_, fun s pol hp0 hp1 hv0 hv1 => exec_solve_singular ?_,
    fun pol => congrArg Work.w (eliminate_duplicate_example pol), fun s hp0 hp1 => exec_solve_singular ?_⟩
  · simp [divideDiagonal, hi, hzero]
  · exact (diagonalFaults_iff n pol w).2 ⟨i, hi, hzero ▸ invOk_zero pol⟩
  · rw [vandermondeRow, powersFrom, show gfMul 1 0 pol = 0 from gfMul_zero 1 pol, powersFrom_zero]
  · rw [State.elements_two, State.elements_two, hp0, hp1, hv0, hv1, gjSolve, eliminate_duplicate_example]
    simp [divideDiagonal, WorkMatrix.entry, WorkMatrix.row, List.range_succ]
  · rw [State.elements_two, State.elements_two, hp0, hp1, gjSolve, eliminate_nilpotent_example]
    simp [divideDiagonal, WorkMatrix.entry, WorkMatrix.row, List.range_succ, gfInv_two_under_zero]

end Sys2Proof.Machine
end
